-- ==== Sys2Proof/Word.lean ====
section
/-! DEFINITION. The word types of the engine, at the widths of spec/00_scope.md rule R6. -/

namespace Sys2Proof

/-- A command word or a response word (`CW` = `RW` = 32). -/
abbrev Word := BitVec 32

/-- An operand field of a command word, a value register or a register index (`VW` = `AW` = 5). -/
abbrev Field := BitVec 5

/-- The `DATA` field of a response word, and the operand bits `cmd[19:0]`. -/
abbrev Data := BitVec 20

/-- One byte of a stored command word (R35). -/
abbrev Byte := BitVec 8

end Sys2Proof
end

