-- ==== Sys2Proof/Syntax.lean ====
section
/-! DEFINITION. The eleven commands: one constructor per row of spec/opcode_table.json (spec/30_encoding.md R52). -/

namespace Sys2Proof

/-- A decoded command. Each operand is the 5-bit unsigned content of its field, as R51 takes it: all of 0 to 31 decode. -/
inductive Instr where
  /-- `NOP` (R71). -/
  | nop
  /-- `LDK k00, k01, k10, k11` (R70), the key matrix in row-major order. -/
  | ldk (k00 k01 k10 k11 : Field)
  /-- `DET` (R80). -/
  | det
  /-- `VALK` (R87). -/
  | valk
  /-- `MODINV a` (R82). -/
  | modinv (a : Field)
  /-- `GCD a, b` (R85). -/
  | gcd (a b : Field)
  /-- `INVK` (R88). -/
  | invk
  /-- `MULE v0, v1` (R100). -/
  | mule (v0 v1 : Field)
  /-- `MULD v0, v1` (R101). -/
  | muld (v0 v1 : Field)
  /-- `RDR r` (R72). -/
  | rdr (r : Field)
  /-- `CLRE` (R73). -/
  | clre
deriving DecidableEq, Repr

end Sys2Proof
end

