-- ==== Sys2Proof/Decode.lean ====
section
/-! DEFINITION. Command words to commands and back (spec/30_encoding.md R50 to R52, R55; spec/20_memory.md R35). -/

namespace Sys2Proof

/-- `cmd[31:28]` (R50). -/
def opField (w : Word) : BitVec 4 := w.extractLsb' 28 4

/-- `cmd[27:20]`, reserved, must be zero (R50). -/
def rsvField (w : Word) : BitVec 8 := w.extractLsb' 20 8

/-- Operand field 0, `cmd[4:0]` (R50). -/
def field0 (w : Word) : Field := w.extractLsb' 0 5

/-- Operand field 1, `cmd[9:5]` (R50). -/
def field1 (w : Word) : Field := w.extractLsb' 5 5

/-- Operand field 2, `cmd[14:10]` (R50). -/
def field2 (w : Word) : Field := w.extractLsb' 10 5

/-- Operand field 3, `cmd[19:15]` (R50). -/
def field3 (w : Word) : Field := w.extractLsb' 15 5

/-- The operand bits `cmd[19:0]`, all four fields as issued (R20). -/
def operandBits (w : Word) : Data := w.extractLsb' 0 20

/-- One row of the opcode map R52: `w` is this command when `w AND mask = matchBits`. -/
structure Row where
  matchBits : Word
  mask : Word
  build : Word → Instr

/-- The word is this row's command (R52). -/
def Row.hits (r : Row) (w : Word) : Bool := w &&& r.mask == r.matchBits

/-- The opcode map R52, in its order. -/
def opcodeRows : List Row :=
  [ ⟨0x00000000, 0xFFFFFFFF, fun _ => .nop⟩,
    ⟨0x10000000, 0xFFF00000, fun w => .ldk (field0 w) (field1 w) (field2 w) (field3 w)⟩,
    ⟨0x20000000, 0xFFFFFFFF, fun _ => .det⟩,
    ⟨0x30000000, 0xFFFFFFFF, fun _ => .valk⟩,
    ⟨0x40000000, 0xFFFFFFE0, fun w => .modinv (field0 w)⟩,
    ⟨0x50000000, 0xFFFFFC00, fun w => .gcd (field0 w) (field1 w)⟩,
    ⟨0x60000000, 0xFFFFFFFF, fun _ => .invk⟩,
    ⟨0x70000000, 0xFFFFFC00, fun w => .mule (field0 w) (field1 w)⟩,
    ⟨0x80000000, 0xFFFFFC00, fun w => .muld (field0 w) (field1 w)⟩,
    ⟨0x90000000, 0xFFFFFFE0, fun w => .rdr (field0 w)⟩,
    ⟨0xA0000000, 0xFFFFFFFF, fun _ => .clre⟩ ]

/-- Why a word, or a byte sequence, is no command (R55). The engine records none of these: an illegal word only raises
`IllegalCommand`, whatever the reason. -/
inductive Illegal where
  /-- `op` is 11 to 15. -/
  | reservedOpcode
  /-- A bit of `rsv` (27:20) is not 0. -/
  | reservedBits
  /-- An operand field the command does not use is not 0. -/
  | unusedField
  /-- Fewer than four bytes are left of a stored command list (R35). -/
  | tooFewBytes
deriving DecidableEq, Repr

/-- The reason of R55 for a word that matches no row. -/
def illegalReason (w : Word) : Illegal :=
  if 11 ≤ (opField w).toNat then .reservedOpcode
  else if rsvField w ≠ 0#8 then .reservedBits
  else .unusedField

/-- The command of the first row the word matches, or "illegal". -/
def decodeRows (rows : List Row) (w : Word) : Except Illegal Instr :=
  match rows.find? (fun r => r.hits w) with
  | some r => .ok (r.build w)
  | none => .error (illegalReason w)

/-- R52, R55: a total decoder, one of the eleven commands with its operands or "illegal". -/
def decode (w : Word) : Except Illegal Instr := decodeRows opcodeRows w

/-- A stored word's four bytes, little-endian: byte 0 holds bits 7:0 (R35). -/
def bytesOfWord (w : Word) : List Byte :=
  [w.extractLsb' 0 8, w.extractLsb' 8 8, w.extractLsb' 16 8, w.extractLsb' 24 8]

/-- Decode the first command of a stored command list and give the bytes after it (R35). -/
def decodeBytes : List Byte → Except Illegal (Instr × List Byte)
  | b0 :: b1 :: b2 :: b3 :: rest =>
    match decode (b3 ++ b2 ++ b1 ++ b0) with
    | .ok i => .ok (i, rest)
    | .error e => .error e
  | _ => .error .tooFewBytes

/-- The opcode of a command (R52). -/
def opcode : Instr → BitVec 4
  | .nop => 0
  | .ldk _ _ _ _ => 1
  | .det => 2
  | .valk => 3
  | .modinv _ => 4
  | .gcd _ _ => 5
  | .invk => 6
  | .mule _ _ => 7
  | .muld _ _ => 8
  | .rdr _ => 9
  | .clre => 10

/-- The format `C` of R50, zeros in `rsv`. -/
def packWord (op : BitVec 4) (f3 f2 f1 f0 : Field) : Word := op ++ 0#8 ++ f3 ++ f2 ++ f1 ++ f0

/-- R50, R57: operand `k` in field `fk`, zeros everywhere else. -/
def encode (i : Instr) : Word :=
  match i with
  | .nop => packWord (opcode i) 0 0 0 0
  | .ldk k00 k01 k10 k11 => packWord (opcode i) k11 k10 k01 k00
  | .det => packWord (opcode i) 0 0 0 0
  | .valk => packWord (opcode i) 0 0 0 0
  | .modinv a => packWord (opcode i) 0 0 0 a
  | .gcd a b => packWord (opcode i) 0 0 b a
  | .invk => packWord (opcode i) 0 0 0 0
  | .mule v0 v1 => packWord (opcode i) 0 0 v1 v0
  | .muld v0 v1 => packWord (opcode i) 0 0 v1 v0
  | .rdr r => packWord (opcode i) 0 0 0 r
  | .clre => packWord (opcode i) 0 0 0 0

/-- A command word from the opcode table's numbering: bit 0 the least significant, every bit from `nbits` up zero. -/
def tableWord (nbits w : Nat) : Word := BitVec.ofNat 32 (w % 2 ^ nbits)

/-- The command the decoder reads from the stored bytes of a table word; none where it refuses. -/
def decodeTableWord (nbits w : Nat) : Option Instr :=
  match decodeBytes (bytesOfWord (tableWord nbits w)) with
  | .ok (i, _) => some i
  | .error _ => none

end Sys2Proof
end

