-- ==== Sys2Proof/Config.lean ====
section
/-! DEFINITION. The parameters of the hardware (spec/00_scope.md rule R6) and the two free timing values. -/

namespace Sys2Proof

/-- `M`, the modulus, hardwired (R6). -/
abbrev Config.modulus : Nat := 27

/-- `N`, the block size and matrix dimension, hardwired (R6). -/
abbrev Config.blockSize : Nat := 2

/-- `IFVER`, the version of the command interface (R6). -/
abbrev Config.interfaceVersion : Nat := 1

/-- The largest legal value of a key entry, an inverse entry or a vector component (R6: 0 to 26). -/
abbrev Config.maxValue : Nat := 26

/-- The content of the `ID` register, hardwired (R21): `M` in bits 4:0, `N` in 7:5, `IFVER` in 11:8, zeros above. -/
abbrev Config.idValue : Data :=
  BitVec.ofNat 20 (Config.modulus + Config.blockSize * 32 + Config.interfaceVersion * 256)

/-- FREE VALUE (log entry 4). `LAT(op) - 1` for the count of the free values drawn so far, the command word (its opcode and its
operand values) and the contents of the registers: R6 and R170 leave `LAT(op)` open but for `LAT(op) ≥ 1`, and let it differ between
commands, operand values and implementations. That it depends on nothing else is DESIGN CHOICE. Only Machine/Port.lean reads it. -/
opaque Config.extraLatency : Nat → Word → List Data → Nat

/-- FREE VALUE (log entry 4). The clock edges after `rst` falls before `cmd_ready` rises (R161: at least zero, not
constrained further), for the count of the free values drawn so far. That it is finite and depends on nothing else is DESIGN CHOICE.
Only Machine/Port.lean reads it. -/
opaque Config.resetRecovery : Nat → Nat

end Sys2Proof
end

