-- ==== Sys2Proof/Machine/Arith.lean ====
section
/-! DEFINITION. The arithmetic of the engine on unbounded integers (spec/00_scope.md R7; spec/41_modular_linear_algebra.md
R83, R86), and the ways a result is put into a register or a `DATA` field. -/

namespace Sys2Proof.Machine

/-- R7: the non-negative residue modulo 27 of any integer. -/
def mod27 (z : Int) : Nat := (z % 27).toNat

/-- R7: the truncated remainder, `z - m * trunc_toward_zero(z / m)`, used only to explain the document's normalization. -/
def trem (z m : Int) : Int := z.tmod m

/-- R102: the document's two steps for a decrypted component, remainder and then "adding 27 if negative". -/
def documentNormalize (z : Int) : Int := if trem z 27 < 0 then trem z 27 + 27 else trem z 27

/-- R83: the first `x` of 1, 2, ..., 26 with `mod27 (a * x) = 1`, if there is one. -/
def modinv27 (a : Nat) : Option Nat := (List.range' 1 26).find? fun x => mod27 (a * x) == 1

/-- The recursion of R86 on a fuel that bounds its second argument. -/
def gcdFuel : Nat → Nat → Nat → Nat
  | 0, a, _ => a
  | fuel + 1, a, b => if b = 0 then a else gcdFuel fuel b (a % b)

/-- R86, `gcd(a, b)`: the greatest common divisor by the Euclidean algorithm; the second argument falls at each step, so `b` steps are enough. -/
def euclid (a b : Nat) : Nat := gcdFuel b a b

/-- R80: the determinant of `[[a, b], [c, d]]`, exact and signed. -/
def determinant (a b c d : Field) : Int := (a.toNat : Int) * d.toNat - b.toNat * c.toNat

/-- R100, R101: one component of a matrix-vector product, `mod27 (a*v0 + b*v1)`. -/
def rowProduct (a b v0 v1 : Field) : Nat := mod27 (a.toNat * v0.toNat + b.toNat * v1.toNat)

/-- A value written to a 5-bit register. -/
def toField (n : Nat) : Field := BitVec.ofNat 5 n

/-- A signed integer written to the 16-bit two's complement `DET` register (R13). -/
def toDet (z : Int) : BitVec 16 := BitVec.ofInt 16 z

/-- `zext_20` of a 5-bit value. -/
def zext20 (v : Field) : Data := v.zeroExtend 20

/-- `sext_20` of the `DET` register. -/
def sext20 (d : BitVec 16) : Data := d.signExtend 20

end Sys2Proof.Machine
end

