-- ==== Sys2Proof/Machine/Flags.lean ====
section
/-! DEFINITION. The fields of the `STATUS` register, bits 11:0 (spec/10_state.md R16 to R19), and the ways they change.
Bits 7:6 are always 0 (R19): every writer below keeps them as they are. -/

namespace Sys2Proof.Machine

/-- `STATUS.ERR`, bits 3:0 (R16). -/
def statusErr (st : BitVec 12) : BitVec 4 := st.extractLsb' 0 4

/-- `STATUS.KV`, bit 4 (R17). -/
def statusKv (st : BitVec 12) : Bool := st.getLsbD 4

/-- `STATUS.IV`, bit 5 (R18). -/
def statusIv (st : BitVec 12) : Bool := st.getLsbD 5

/-- `STATUS.EOP`, bits 11:8 (R19). -/
def statusEop (st : BitVec 12) : BitVec 4 := st.extractLsb' 8 4

/-- `STATUS.KV <- b`. -/
def statusSetKv (b : Bool) (st : BitVec 12) : BitVec 12 := st.extractLsb' 5 7 ++ BitVec.ofBool b ++ st.extractLsb' 0 4

/-- `STATUS.IV <- b`. -/
def statusSetIv (b : Bool) (st : BitVec 12) : BitVec 12 := st.extractLsb' 6 6 ++ BitVec.ofBool b ++ st.extractLsb' 0 5

/-- `STATUS.ERR <- err ; STATUS.EOP <- eop` (R132, R73). -/
def statusSetError (err eop : BitVec 4) (st : BitVec 12) : BitVec 12 := eop ++ st.extractLsb' 4 4 ++ err

end Sys2Proof.Machine
end

