-- ==== Sys2Proof/Machine/State.lean ====
section
/-! DEFINITION. The state of the engine (spec/10_state.md R10) with the host's side of its command port, and the
value of every field after reset (R25). -/

namespace Sys2Proof.Machine

/-- The names of the register index space (R10), in the order of their indices 0 to 16. -/
inductive Reg where
  | k00 | k01 | k10 | k11 | i00 | i01 | i10 | i11 | det | detm | sinv | gcdr | out0 | out1 | status | earg | id
deriving DecidableEq, Repr

/-- The errors the engine raises (R130; the kinds with codes 1 and 4 belong to host software, 8 to 15 never occur). -/
inductive EngineError where
  /-- A key entry or vector component of 27 to 31: `LDK`, `MULE`, `MULD`. -/
  | invalidValue
  /-- No inverse modulo 27: `MODINV`, `INVK`. -/
  | noModularInverse
  /-- An illegal word, or `RDR` of a reserved index. -/
  | illegalCommand
  /-- `MULE` while `KV` is 0. -/
  | keyNotValidated
  /-- `MULD` while `IV` is 0. -/
  | inverseNotReady
deriving DecidableEq, Repr

/-- What the host may do to the engine between two commands (R4, R119, R161). -/
inductive HostInput where
  /-- A command word offered on the command port and accepted (R32). -/
  | command (w : Word)
  /-- The input `rst` is asserted (R160). -/
  | reset
deriving DecidableEq, Repr

/-- The 16 registers of R10 that hold state (`ID` is hardwired, R21, and read through `readReg`), and the host's side:
the events the host has lined up and the response words delivered to it, both oldest first (log entry 1). -/
structure State where
  k00 : Field
  k01 : Field
  k10 : Field
  k11 : Field
  i00 : Field
  i01 : Field
  i10 : Field
  i11 : Field
  det : BitVec 16
  detm : Field
  sinv : Field
  gcdr : Field
  out0 : Field
  out1 : Field
  status : BitVec 12
  earg : Data
  inputs : List HostInput
  responses : List Word
deriving DecidableEq, Repr

/-- No fault exists: for every state and every word the next state is determined (R55, R119), so nothing raises one
(neither safe nor unsafe: there is nothing to differ). The engine's own errors are next states (`EngineError`). -/
inductive Fault where
deriving DecidableEq, Repr

/-- Why the model, not the machine, would stop. -/
inductive Refusal where
  /-- A command with no meaning yet, raised by no arm of `exec`: every command has its meaning. Safe: a claim about it
  would be unprovable, never false. -/
  | notModelled (mnemonic : String)
deriving DecidableEq, Repr

/-- The engine right after reset (R25): every register 0, and a host that has sent and received nothing. -/
def State.reset : State where
  k00 := 0
  k01 := 0
  k10 := 0
  k11 := 0
  i00 := 0
  i01 := 0
  i10 := 0
  i11 := 0
  det := 0
  detm := 0
  sinv := 0
  gcdr := 0
  out0 := 0
  out1 := 0
  status := 0
  earg := 0
  inputs := []
  responses := []

end Sys2Proof.Machine
end

