-- ==== Sys2Proof/Machine/Operands.lean ====
section
/-! DEFINITION. The operand forms of the commands (spec/30_encoding.md R51): a 5-bit unsigned value taken directly from
its field, checked against 0 to 26 where the command needs a value, or read as a register index. -/

namespace Sys2Proof.Machine

/-- The operand is a value, 0 to 26; 27 to 31 are `InvalidValue` (R51, R70, R100, R101). -/
def isValue (v : Field) : Bool := decide (v.toNat ≤ Config.maxValue)

/-- The register of an index (R10, R34); 17 to 31 are reserved. -/
def regOfIndex (r : Field) : Option Reg :=
  match r.toNat with
  | 0 => some .k00
  | 1 => some .k01
  | 2 => some .k10
  | 3 => some .k11
  | 4 => some .i00
  | 5 => some .i01
  | 6 => some .i10
  | 7 => some .i11
  | 8 => some .det
  | 9 => some .detm
  | 10 => some .sinv
  | 11 => some .gcdr
  | 12 => some .out0
  | 13 => some .out1
  | 14 => some .status
  | 15 => some .earg
  | 16 => some .id
  | _ => none

end Sys2Proof.Machine
end

