-- ==== Sys2Proof/Machine/Ops.lean ====
section
/-! DEFINITION. The named operations the meanings share: reading a register, ending a command with its response word,
raising an error and returning from one, the gate of a pending error, and reset. -/

namespace Sys2Proof.Machine

/-- R72, R34: one whole register as 20 bits, zero-extended, but `DET` sign-extended; `ID` is hardwired (R21). -/
def readReg (r : Reg) (s : State) : Data :=
  match r with
  | .k00 => zext20 s.k00
  | .k01 => zext20 s.k01
  | .k10 => zext20 s.k10
  | .k11 => zext20 s.k11
  | .i00 => zext20 s.i00
  | .i01 => zext20 s.i01
  | .i10 => zext20 s.i10
  | .i11 => zext20 s.i11
  | .det => sext20 s.det
  | .detm => zext20 s.detm
  | .sinv => zext20 s.sinv
  | .gcdr => zext20 s.gcdr
  | .out0 => zext20 s.out0
  | .out1 => zext20 s.out1
  | .status => s.status.zeroExtend 20
  | .earg => s.earg
  | .id => Config.idValue

/-- R53: the response word for a status and a `DATA` field. -/
def responseWord (st : BitVec 12) (d : Data) : Word :=
  statusErr st ++ BitVec.ofBool (statusKv st) ++ BitVec.ofBool (statusIv st) ++ 0#6 ++ d

/-- Deliver one response word to the host (R33). -/
def pushResponse (w : Word) (s : State) : State := { s with responses := s.responses ++ [w] }

/-- R53, `respond(d)`: end the command with `DATA = d` and the status fields as they are after all its writes. -/
def respond (d : Data) (s : State) : Host.Outcome State Fault Refusal :=
  .next (pushResponse (responseWord s.status d) s)

/-- R130: the code of an error, the value of `STATUS.ERR`. -/
def errorCode : EngineError → BitVec 4
  | .invalidValue => 2
  | .noModularInverse => 3
  | .illegalCommand => 5
  | .keyNotValidated => 6
  | .inverseNotReady => 7

/-- R132: the error record, made only when no error is pending: the code, `cmd[31:28]` and `cmd[19:0]`. -/
def recordError (e : EngineError) (cmd : Word) (s : State) : State :=
  if statusErr s.status = 0#4 then
    { s with status := statusSetError (errorCode e) (opField cmd) s.status, earg := operandBits cmd }
  else s

/-- R132, `raise E` on the command word `cmd`: THE one way an error is taken. Nothing but the error record is written. -/
def raise (e : EngineError) (cmd : Word) (s : State) : Host.Outcome State Fault Refusal :=
  respond 0 (recordError e cmd s)

/-- R73, R135: the return from an error; `ERR`, `EOP` and `EARG` become 0 and nothing else changes. -/
def clearError (s : State) : State := { s with status := statusSetError 0 0 s.status, earg := 0 }

/-- R133: a gated command is refused while an error is pending: no register changes and `DATA` is 0. -/
def gated (s : State) (body : Host.Outcome State Fault Refusal) : Host.Outcome State Fault Refusal :=
  if statusErr s.status = 0#4 then body else respond 0 s

/-- R160: every register takes its reset value; the host keeps the events it still has lined up and the responses it already has
(log entry 5). -/
def takeReset (s : State) : State := { State.reset with inputs := s.inputs, responses := s.responses }

/-- The host's events after the first one. -/
def withInputs (l : List HostInput) (s : State) : State := { s with inputs := l }

/-- The state of an outcome that is a next state. -/
def nextState? : Host.Outcome State Fault Refusal → Option State
  | .next s => some s
  | .fault _ => none
  | .refused _ => none

end Sys2Proof.Machine
end

