-- ==== Sys2Proof/Machine/BlockMultiply.lean ====
section
/-! DEFINITION. Block multiply commands (spec/42_block_multiply.md). -/

namespace Sys2Proof.Machine

/-- The part `MULE` and `MULD` share (R100, R101, R104): multiply `(v0, v1)` by `[[a, b], [c, d]]`, write both components together
and answer them packed. -/
def multiplyBlock (a b c d v0 v1 : Field) (s : State) : Host.Outcome State Fault Refusal :=
  let o0 := toField (rowProduct a b v0 v1)
  let o1 := toField (rowProduct c d v0 v1)
  respond (0#10 ++ o1 ++ o0) { s with out0 := o0, out1 := o1 }

/-- `MULE v0, v1` (R100): by the key matrix; the flag `KV` is checked before the operands. -/
def execMule (v0 v1 : Field) (s : State) : Host.Outcome State Fault Refusal :=
  gated s <|
    if statusKv s.status then
      if isValue v0 && isValue v1 then multiplyBlock s.k00 s.k01 s.k10 s.k11 v0 v1 s
      else raise .invalidValue (encode (.mule v0 v1)) s
    else raise .keyNotValidated (encode (.mule v0 v1)) s

/-- `MULD v0, v1` (R101): by the inverse matrix; the flag `IV` is checked before the operands. -/
def execMuld (v0 v1 : Field) (s : State) : Host.Outcome State Fault Refusal :=
  gated s <|
    if statusIv s.status then
      if isValue v0 && isValue v1 then multiplyBlock s.i00 s.i01 s.i10 s.i11 v0 v1 s
      else raise .invalidValue (encode (.muld v0 v1)) s
    else raise .inverseNotReady (encode (.muld v0 v1)) s

end Sys2Proof.Machine
end

