-- ==== Sys2Proof/Machine/KeyAccess.lean ====
section
/-! DEFINITION. Key load, register read and housekeeping commands (spec/40_key_and_register_access.md). -/

namespace Sys2Proof.Machine

/-- `NOP` (R71): exempt, changes no state. -/
def execNop (s : State) : Host.Outcome State Fault Refusal := respond 0 s

/-- `LDK k00, k01, k10, k11` (R70). -/
def execLdk (k00 k01 k10 k11 : Field) (s : State) : Host.Outcome State Fault Refusal :=
  gated s <|
    if isValue k00 && isValue k01 && isValue k10 && isValue k11 then
      respond 0
        { s with
          k00 := k00, k01 := k01, k10 := k10, k11 := k11
          i00 := 0, i01 := 0, i10 := 0, i11 := 0
          status := statusSetIv false (statusSetKv false s.status) }
    else raise .invalidValue (encode (.ldk k00 k01 k10 k11)) s

/-- `RDR r` (R72): exempt, no side effect; a reserved index raises `IllegalCommand`. -/
def execRdr (r : Field) (s : State) : Host.Outcome State Fault Refusal :=
  match regOfIndex r with
  | some reg => respond (readReg reg s) s
  | none => raise .illegalCommand (encode (.rdr r)) s

/-- `CLRE` (R73): exempt, the return from an error. -/
def execClre (s : State) : Host.Outcome State Fault Refusal := respond 0 (clearError s)

end Sys2Proof.Machine
end

