-- ==== Sys2Proof/Machine/LinearAlgebra.lean ====
section
/-! DEFINITION. Modular linear algebra commands (spec/41_modular_linear_algebra.md). -/

namespace Sys2Proof.Machine

/-- The raw determinant of the key registers (R80). -/
def keyDeterminant (s : State) : Int := determinant s.k00 s.k01 s.k10 s.k11

/-- `DET` (R80). -/
def execDet (s : State) : Host.Outcome State Fault Refusal :=
  gated s <|
    let d := toDet (keyDeterminant s)
    respond (sext20 d) { s with det := d }

/-- `MODINV a` (R82). -/
def execModinv (a : Field) (s : State) : Host.Outcome State Fault Refusal :=
  gated s <|
    match modinv27 a.toNat with
    | none => raise .noModularInverse (encode (.modinv a)) s
    | some x => respond (zext20 (toField x)) { s with sinv := toField x }

/-- `GCD a, b` (R85). -/
def execGcd (a b : Field) (s : State) : Host.Outcome State Fault Refusal :=
  gated s <|
    let g := toField (euclid a.toNat b.toNat)
    respond (zext20 g) { s with gcdr := g }

/-- `VALK` (R87): `KV` becomes the validity of the key, which is also the answer; it never raises. -/
def execValk (s : State) : Host.Outcome State Fault Refusal :=
  gated s <|
    let m := mod27 (keyDeterminant s)
    let g := euclid m 27
    respond (if g = 1 then 1 else 0)
      { s with
        det := toDet (keyDeterminant s), detm := toField m, gcdr := toField g
        status := statusSetKv (decide (g = 1)) s.status }

/-- `INVK` (R88): adjugate times the inverse of the determinant, each entry reduced by `mod27`. -/
def execInvk (s : State) : Host.Outcome State Fault Refusal :=
  gated s <|
    let m := mod27 (keyDeterminant s)
    match modinv27 m with
    | none => raise .noModularInverse (encode .invk) s
    | some x =>
      let i00 := toField (mod27 ((s.k11.toNat : Int) * x))
      let i01 := toField (mod27 (-(s.k01.toNat : Int) * x))
      let i10 := toField (mod27 (-(s.k10.toNat : Int) * x))
      let i11 := toField (mod27 ((s.k00.toNat : Int) * x))
      respond (i11 ++ i10 ++ i01 ++ i00)
        { s with
          det := toDet (keyDeterminant s), detm := toField m, sinv := toField x
          i00 := i00, i01 := i01, i10 := i10, i11 := i11
          status := statusSetIv true s.status }

end Sys2Proof.Machine
end

