-- ==== Sys2Proof/Machine/Dispatch.lean ====
section
/-! DEFINITION. Which meaning each command has: the last line of the common entry sequence R134. -/

namespace Sys2Proof.Machine

def exec (i : Instr) (s : State) : Host.Outcome State Fault Refusal :=
  match i with
  | .nop => Sys2Proof.Machine.execNop s
  | .ldk k00 k01 k10 k11 => Sys2Proof.Machine.execLdk k00 k01 k10 k11 s
  | .det => Sys2Proof.Machine.execDet s
  | .valk => Sys2Proof.Machine.execValk s
  | .modinv a => Sys2Proof.Machine.execModinv a s
  | .gcd a b => Sys2Proof.Machine.execGcd a b s
  | .invk => Sys2Proof.Machine.execInvk s
  | .mule v0 v1 => Sys2Proof.Machine.execMule v0 v1 s
  | .muld v0 v1 => Sys2Proof.Machine.execMuld v0 v1 s
  | .rdr r => Sys2Proof.Machine.execRdr r s
  | .clre => Sys2Proof.Machine.execClre s

end Sys2Proof.Machine
end

