-- ==== Sys2Proof/Machine/Command.lean ====
section
/-! DEFINITION. Executing one command word (spec/60_exceptions.md R134), illegal words among them, and runs of command
words (spec/00_scope.md R5). -/

namespace Sys2Proof.Machine

/-- An illegal word (R55): refused while an error is pending, else it raises `IllegalCommand`. -/
def execIllegal (cmd : Word) (s : State) : Host.Outcome State Fault Refusal :=
  gated s (raise .illegalCommand cmd s)

/-- R134: decode the accepted word and execute it. -/
def execWord (cmd : Word) (s : State) : Host.Outcome State Fault Refusal :=
  match decode cmd with
  | .ok i => exec i s
  | .error _ => execIllegal cmd s

/-- R5: a run, command words issued one after the other. Its result is the final state, which holds the list of responses. -/
def runCommands : List Word → State → Host.Outcome State Fault Refusal
  | [], s => .next s
  | w :: ws, s =>
    match execWord w s with
    | .next t => runCommands ws t
    | .fault f => .fault f
    | .refused r => .refused r

/-- One command seen from the host: the response word and the next state (R33). -/
def answer (cmd : Word) (s : State) : Word × State :=
  match execWord cmd s with
  | .next t => (t.responses.getLastD 0, t)
  | .fault _ => (0, s)
  | .refused _ => (0, s)

/-- Take the host's next event: none while the host sends nothing. -/
def takeInput (s : State) : Option (HostInput × State) :=
  match s.inputs with
  | [] => none
  | i :: rest => some (i, withInputs rest s)

/-- One step of the engine: the next event of the host, a command word or a reset (R161). While the host sends nothing the engine
waits and keeps all its state (R5, R119, R142). -/
def stepEngine (s : State) : Host.Outcome State Fault Refusal :=
  match takeInput s with
  | none => .next s
  | some (.command w, s') => execWord w s'
  | some (.reset, s') => .next (takeReset s')

/-- The host offers this word next, before all it has lined up. -/
def offerFirst (w : Word) (s : State) : State := withInputs (.command w :: s.inputs) s

end Sys2Proof.Machine
end

