-- ==== Sys2Proof/Machine/Step.lean ====
section
/-! DEFINITION. One step of the machine, and how a command word is put where the next step takes it. -/

namespace Sys2Proof.Machine

/-- One step: one event of the host, completely (R4, R36). -/
def step (s : State) : Host.Outcome State Fault Refusal := stepEngine s

/-- The engine fetches nothing (R22, R42): the word is offered on the command port, ahead of what the host has lined up, so the very
next step executes it (log entry 3). -/
def State.withFetchWord (s : State) (nbits w : Nat) : State := offerFirst (tableWord nbits w) s

end Sys2Proof.Machine
end

