-- ==== Sys2Proof/Machine/Assembler.lean ====
section
/-! DEFINITION. The assembler line syntax and the pseudo-instructions of spec/30_encoding.md R57 and R58: notation of the host,
not part of the engine (log entry 14 for what R57 does not say). -/

namespace Sys2Proof.Machine

/-- The pseudo-instructions (R58); the values of a text come as its blocks. -/
inductive Pseudo where
  | key (a b c d : Field)
  | dkey (a b c d : Field)
  | rds
  | encrypt (blocks : List (Field × Field))
  | decrypt (blocks : List (Field × Field))
deriving DecidableEq, Repr

/-- R58: the fixed sequence of commands a pseudo-instruction stands for. R58 writes `ENCRYPT` and `DECRYPT` with at least one block; over
no block `ENCRYPT` is no command and `DECRYPT` is `INVK` alone by the model's choice (log entry 17, DESIGN CHOICE). -/
def expand : Pseudo → List Instr
  | .key a b c d => [.ldk a b c d, .valk]
  | .dkey a b c d => [.ldk a b c d, .valk, .invk]
  | .rds => [.rdr 14]
  | .encrypt blocks => blocks.map fun p => .mule p.1 p.2
  | .decrypt blocks => .invk :: blocks.map fun p => .muld p.1 p.2

/-- A `;` starts a comment that runs to the end of the line (R57). -/
def dropComment (line : List Char) : List Char := line.takeWhile (· != ';')

/-- Leave out the spaces at both ends. -/
def trimSpaces (cs : List Char) : List Char :=
  ((cs.dropWhile (· == ' ')).reverse.dropWhile (· == ' ')).reverse

/-- The value of a digit of a base up to 16; hexadecimal letters of either case. -/
def digitValue (base : Nat) (c : Char) : Option Nat :=
  let n := c.toNat
  let v := if 48 ≤ n ∧ n ≤ 57 then n - 48 else if 65 ≤ n ∧ n ≤ 70 then n - 55 else if 97 ≤ n ∧ n ≤ 102 then n - 87 else 16
  if v < base then some v else none

/-- A non-empty run of digits. -/
def digitsValue (base : Nat) : List Char → Option Nat
  | [] => none
  | c :: cs => (c :: cs).foldl (fun acc d => acc.bind fun a => (digitValue base d).map fun v => a * base + v) (some 0)

/-- A decimal number or a `0x` hexadecimal number (R57). -/
def numberValue : List Char → Option Nat
  | '0' :: 'x' :: cs => digitsValue 16 cs
  | cs => digitsValue 10 cs

/-- R57: an operand is 0 to 31; a larger one cannot be encoded and is an assembler error. -/
def operandValue (cs : List Char) : Option Field :=
  (numberValue (trimSpaces cs)).bind fun n => if n ≤ 31 then some (BitVec.ofNat 5 n) else none

/-- The register names of R10 with their indices. -/
def registerNames : List (List Char) :=
  ["K00".toList, "K01".toList, "K10".toList, "K11".toList, "I00".toList, "I01".toList, "I10".toList, "I11".toList,
    "DET".toList, "DETM".toList, "SINV".toList, "GCDR".toList, "OUT0".toList, "OUT1".toList, "STATUS".toList,
    "EARG".toList, "ID".toList]

/-- The operand of `RDR`: a number or a register name (R57). -/
def indexOperand (cs : List Char) : Option Field :=
  match registerNames.findIdx? (· == trimSpaces cs) with
  | some i => some (BitVec.ofNat 5 i)
  | none => operandValue cs

/-- Cut a list at every comma. -/
def splitCommas : List Char → List (List Char)
  | [] => [[]]
  | ',' :: cs => [] :: splitCommas cs
  | c :: cs =>
    match splitCommas cs with
    | [] => [[c]]
    | p :: ps => (c :: p) :: ps

/-- R57: one command a line, the mnemonic in upper case, operands separated by commas, in the order of R52. -/
def assembleLine (line : List Char) : Option Instr :=
  let body := trimSpaces (dropComment line)
  let name := body.takeWhile (· != ' ')
  let rest := trimSpaces (body.dropWhile (· != ' '))
  let args := if rest == [] then [] else splitCommas rest
  match args with
  | [] =>
    if name == "NOP".toList then some .nop
    else if name == "DET".toList then some .det
    else if name == "VALK".toList then some .valk
    else if name == "INVK".toList then some .invk
    else if name == "CLRE".toList then some .clre
    else none
  | [a] =>
    if name == "MODINV".toList then (operandValue a).map .modinv
    else if name == "RDR".toList then (indexOperand a).map .rdr
    else none
  | [a, b] =>
    (operandValue a).bind fun x => (operandValue b).bind fun y =>
      if name == "GCD".toList then some (.gcd x y)
      else if name == "MULE".toList then some (.mule x y)
      else if name == "MULD".toList then some (.muld x y)
      else none
  | [a, b, c, d] =>
    (operandValue a).bind fun x => (operandValue b).bind fun y => (operandValue c).bind fun z => (operandValue d).bind fun u =>
      if name == "LDK".toList then some (.ldk x y z u) else none
  | _ => none

end Sys2Proof.Machine
end

