-- ==== Sys2Proof/Machine/HostCalls.lean ====
section
/-! DEFINITION. The document's calls as command sequences of the host (spec/43_host_call_sequences.md R110 to R116, R118). This is
host software around the engine (spec/00_scope.md R3), written so that the document's text-level properties can be stated. -/

namespace Sys2Proof.Machine

/-- How a call of the host fails (R130, R118): the two host-only kinds, `InvalidValue` of the codec, and an engine error by code. -/
inductive HostError where
  | invalidSymbol
  | invalidValue
  | invalidInputLength
  | engine (code : BitVec 4)
deriving DecidableEq, Repr

/-- The code of a host error in the shared code space (R130). -/
def hostErrorCode : HostError → BitVec 4
  | .invalidSymbol => 1
  | .invalidValue => 2
  | .invalidInputLength => 4
  | .engine code => code

/-- R110: a symbol of the alphabet (space, then a to z) to its value. -/
def symbolToValue (c : Char) : Except HostError Field :=
  if c.toNat = 0x20 then .ok 0
  else if 0x61 ≤ c.toNat ∧ c.toNat ≤ 0x7A then .ok (BitVec.ofNat 5 (c.toNat - 0x60))
  else .error .invalidSymbol

/-- R111: a value of 0 to 26 to its symbol. -/
def valueToSymbol (n : Field) : Except HostError Char :=
  if n.toNat = 0 then .ok ' '
  else if n.toNat ≤ 26 then .ok (Char.ofNat (0x60 + n.toNat))
  else .error .invalidValue

/-- Map every symbol of a text; the first bad one fails the call. -/
def symbolsToValues : List Char → Except HostError (List Field)
  | [] => .ok []
  | c :: cs =>
    match symbolToValue c, symbolsToValues cs with
    | .ok v, .ok vs => .ok (v :: vs)
    | .error e, _ => .error e
    | .ok _, .error e => .error e

/-- Map every value back to its symbol. -/
def valuesToSymbols : List Field → Except HostError (List Char)
  | [] => .ok []
  | v :: vs =>
    match valueToSymbol v, valuesToSymbols vs with
    | .ok c, .ok cs => .ok (c :: cs)
    | .error e, _ => .error e
    | .ok _, .error e => .error e

/-- R113 step 2: an odd-length text gets one space symbol. -/
def padText (t : List Char) : List Char := if t.length % 2 = 0 then t else t ++ [' ']

/-- R118: the call is over; the host clears the error and reports its code. -/
def failCall {α : Type} (rsp : Word) (s : State) : Except HostError α × State :=
  (.error (.engine (opField rsp)), (answer (encode .clre) s).2)

/-- R113, R115: one block command per pair of values, in ascending order; a response with `ERR ≠ 0` ends the call and every output
so far is discarded (R118). -/
def issueBlocks (block : Field → Field → Instr) : List Field → State → Except HostError (List Field) × State
  | v0 :: v1 :: rest, s =>
    let r := answer (encode (block v0 v1)) s
    if opField r.1 ≠ 0#4 then failCall r.1 r.2
    else
      match issueBlocks block rest r.2 with
      | (.ok out, t) => (.ok (field0 r.1 :: field1 r.1 :: out), t)
      | (.error e, t) => (.error e, t)
  | [_], s => (.ok [], s)
  | [], s => (.ok [], s)

/-- R112: construct a key and validate it; the answer is `validateKey`. -/
def hostAcceptKey (k00 k01 k10 k11 : Field) (s : State) : Except HostError Bool × State :=
  let r := answer (encode (.ldk k00 k01 k10 k11)) s
  if opField r.1 ≠ 0#4 then failCall r.1 r.2
  else
    let v := answer (encode .valk) r.2
    if opField v.1 ≠ 0#4 then failCall v.1 v.2 else (.ok (operandBits v.1 == 1), v.2)

/-- R113 step 4, R115 step 2: issue the blocks of the mapped text and map the results back. -/
def issueText (block : Field → Field → Instr) (vs : List Field) (s : State) : Except HostError (List Char) × State :=
  match issueBlocks block vs s with
  | (.error e, u) => (.error e, u)
  | (.ok out, u) => (valuesToSymbols out, u)

/-- R113, `encrypt`: lower-case, pad, map every symbol, then one `MULE` per block. -/
def hostEncrypt (t : List Char) (s : State) : Except HostError (List Char) × State :=
  match symbolsToValues (padText (t.map Char.toLower)) with
  | .error e => (.error e, s)
  | .ok vs => issueText .mule vs s

/-- R115, R116, `decrypt`: refuse an odd length before any command; map every symbol, a symbol outside the alphabet failing the
call before any command too (93_implementation_defined.md U7); an empty text issues no command (95_test_vectors.md T3); else
issue `INVK` once, then one `MULD` per block (log entry 13 for the order). -/
def hostDecrypt (t : List Char) (s : State) : Except HostError (List Char) × State :=
  if t.length % 2 ≠ 0 then (.error .invalidInputLength, s)
  else
    match symbolsToValues t with
    | .error e => (.error e, s)
    | .ok [] => (.ok [], s)
    | .ok (v :: vs) =>
      let r := answer (encode .invk) s
      if opField r.1 ≠ 0#4 then failCall r.1 r.2 else issueText .muld (v :: vs) r.2

end Sys2Proof.Machine
end

