-- ==== Sys2Proof/Machine/Port.lean ====
section
/-! DEFINITION. The ports of the engine edge by edge (spec/20_memory.md R31 to R33; spec/70_reset_and_hazards.md R160, R161):
the valid/ready handshake around the one-step machine, with the latencies of Config left free (log entries 4 and 10). -/

namespace Sys2Proof.Machine

/-- What the engine is doing between two rising edges of `clk`. -/
inductive Phase where
  /-- `rst` was sampled, `cmd_ready` has not risen yet; so many edges are still to pass (R160, R161). -/
  | starting (left : Nat)
  /-- No command held: `cmd_ready` is 1 (R32). -/
  | idle
  /-- An accepted command whose response is not offered yet; so many edges are still to pass (R33). -/
  | busy (cmd : Word) (left : Nat)
  /-- The response is offered and not accepted yet: `rsp_valid` is 1 (R33). -/
  | offering (rsp : Word)
deriving DecidableEq, Repr

/-- The input ports as sampled on one rising edge (R31). -/
structure PortIn where
  rst : Bool
  cmdValid : Bool
  cmdData : Word
  rspReady : Bool
deriving DecidableEq, Repr

/-- The output ports as driven between two edges (R31). `rsp` is `rsp_data` while `rsp_valid` is 1, none while it is 0. -/
structure PortOut where
  cmdReady : Bool
  rsp : Option Word
deriving DecidableEq, Repr

/-- The engine behind its ports. `drawn` counts the free latencies used up (log entry 4). -/
structure Port where
  engine : State
  phase : Phase
  drawn : Nat
deriving DecidableEq, Repr

/-- What the engine drives (R32, R33, R160). -/
def portOut (p : Port) : PortOut :=
  match p.phase with
  | .starting _ => { cmdReady := false, rsp := none }
  | .idle => { cmdReady := true, rsp := none }
  | .busy _ _ => { cmdReady := false, rsp := none }
  | .offering r => { cmdReady := false, rsp := some r }

/-- R32: the command word accepted at this edge. -/
def portAccepts (i : PortIn) (p : Port) : Option Word :=
  if !i.rst && i.cmdValid && (portOut p).cmdReady then some i.cmdData else none

/-- R33: the response word accepted at this edge. At an edge that samples `rst` together with `rsp_valid = 1` and `rsp_ready = 1` none
is: R33 has no condition on `rst` and R161 does not settle the tie, so this is the model's choice (log entry 16, DESIGN CHOICE). -/
def portDelivers (i : PortIn) (p : Port) : Option Word :=
  if !i.rst && i.rspReady then (portOut p).rsp else none

/-- The contents of the registers, in the order of their indices (R10); what a latency may depend on beside the command. -/
def registerContents (s : State) : List Data :=
  (List.range 32).filterMap fun i => (regOfIndex (BitVec.ofNat 5 i)).map fun r => readReg r s

/-- One rising edge of `clk`. A command's writes and its response come at the edge that offers the response (log entry 10). -/
def portEdge (i : PortIn) (p : Port) : Port :=
  if i.rst then
    { engine := State.reset, phase := .starting (Config.resetRecovery p.drawn), drawn := p.drawn + 1 }
  else
    match p.phase with
    | .starting 0 => { p with phase := .idle }
    | .starting (n + 1) => { p with phase := .starting n }
    | .idle =>
      match portAccepts i p with
      | some cmd =>
        { p with phase := .busy cmd (Config.extraLatency p.drawn cmd (registerContents p.engine)), drawn := p.drawn + 1 }
      | none => p
    | .busy cmd 0 => { p with engine := (answer cmd p.engine).2, phase := .offering (answer cmd p.engine).1 }
    | .busy cmd (n + 1) => { p with phase := .busy cmd n }
    | .offering _ =>
      match portDelivers i p with
      | some _ => { p with phase := .idle }
      | none => p

/-- The ports over a list of edges. -/
def portRun : List PortIn → Port → Port
  | [], p => p
  | i :: is, p => portRun is (portEdge i p)

/-- The command words accepted over a list of edges, in order. -/
def portAccepted : List PortIn → Port → List Word
  | [], _ => []
  | i :: is, p => (portAccepts i p).toList ++ portAccepted is (portEdge i p)

/-- The response words accepted by the host over a list of edges, in order. -/
def portDelivered : List PortIn → Port → List Word
  | [], _ => []
  | i :: is, p => (portDelivers i p).toList ++ portDelivered is (portEdge i p)

/-- The command held and not yet executed (R32: at most one is in flight). -/
def portPending (p : Port) : List Word :=
  match p.phase with
  | .starting _ => []
  | .idle => []
  | .busy cmd _ => [cmd]
  | .offering _ => []

/-- The response offered and not yet accepted. -/
def portOffered (p : Port) : List Word := (portOut p).rsp.toList

end Sys2Proof.Machine
end

