-- ==== Sys2Proof/Safety.lean ====
section
/-! DEFINITION. The terms in which statements about the engine are made: the invariant of spec/10_state.md R26, the shapes of an
answer (R53, R132, R133), and what counts as a successful call (spec/60_exceptions.md R136). -/

namespace Sys2Proof.Machine

/-- No error is pending (R16). -/
abbrev Ready (s : State) : Prop := s.status.extractLsb' 0 4 = 0#4

/-- `KV` is 1 (R17). -/
abbrev KeyValidated (s : State) : Prop := s.status.getLsbD 4 = true

/-- `IV` is 1 (R18). -/
abbrev InverseValid (s : State) : Prop := s.status.getLsbD 5 = true

/-- R10, "legal contents": the range of every register. -/
abbrev LegalContents (s : State) : Prop :=
  s.k00.toNat ≤ 26 ∧ s.k01.toNat ≤ 26 ∧ s.k10.toNat ≤ 26 ∧ s.k11.toNat ≤ 26 ∧
  s.i00.toNat ≤ 26 ∧ s.i01.toNat ≤ 26 ∧ s.i10.toNat ≤ 26 ∧ s.i11.toNat ≤ 26 ∧
  (-676 ≤ s.det.toInt ∧ s.det.toInt ≤ 676) ∧ s.detm.toNat ≤ 26 ∧ s.sinv.toNat ≤ 26 ∧
  s.out0.toNat ≤ 26 ∧ s.out1.toNat ≤ 26 ∧ s.status.extractLsb' 6 2 = 0#2

/-- The determinant of the key registers as an integer. -/
abbrev keyDet (s : State) : Int := (s.k00.toNat : Int) * s.k11.toNat - s.k01.toNat * s.k10.toNat

/-- R26 (c): the inverse registers times the key, in both orders, is the identity modulo 27. -/
abbrev InverseOfKey (s : State) : Prop :=
  (s.k00.toNat * s.i00.toNat + s.k01.toNat * s.i10.toNat) % 27 = 1 ∧
  (s.k00.toNat * s.i01.toNat + s.k01.toNat * s.i11.toNat) % 27 = 0 ∧
  (s.k10.toNat * s.i00.toNat + s.k11.toNat * s.i10.toNat) % 27 = 0 ∧
  (s.k10.toNat * s.i01.toNat + s.k11.toNat * s.i11.toNat) % 27 = 1 ∧
  (s.i00.toNat * s.k00.toNat + s.i01.toNat * s.k10.toNat) % 27 = 1 ∧
  (s.i00.toNat * s.k01.toNat + s.i01.toNat * s.k11.toNat) % 27 = 0 ∧
  (s.i10.toNat * s.k00.toNat + s.i11.toNat * s.k10.toNat) % 27 = 0 ∧
  (s.i10.toNat * s.k01.toNat + s.i11.toNat * s.k11.toNat) % 27 = 1

/-- R26: what holds in every state reachable from reset. -/
abbrev EngineInv (s : State) : Prop :=
  LegalContents s ∧
  (KeyValidated s → Int.gcd (keyDet s % 27) 27 = 1) ∧
  (InverseValid s → InverseOfKey s) ∧
  (¬ InverseValid s → s.i00 = 0 ∧ s.i01 = 0 ∧ s.i10 = 0 ∧ s.i11 = 0) ∧
  (Ready s → s.status.extractLsb' 8 4 = 0#4 ∧ s.earg = 0) ∧
  s.status.extractLsb' 0 4 ∈ [0#4, 2#4, 3#4, 5#4, 6#4, 7#4]

/-- R53: from `s` to `t` exactly one response word was delivered, with `ERR`, `KV` and `IV` of the status of `t` and this `DATA`. -/
def Responds (s t : State) (d : Data) : Prop :=
  ∃ w : Word, t.responses = s.responses ++ [w] ∧ w.extractLsb' 28 4 = t.status.extractLsb' 0 4 ∧
    w.getLsbD 27 = t.status.getLsbD 4 ∧ w.getLsbD 26 = t.status.getLsbD 5 ∧ w.extractLsb' 20 6 = 0#6 ∧
    w.extractLsb' 0 20 = d

/-- Nothing of the state changed but the list of responses. -/
def OnlyAnswered (s t : State) : Prop := t = { s with responses := t.responses }

/-- R132 with no error pending: the command `cmd` recorded this code and answered `DATA = 0`, and changed nothing else. -/
def RaisesError (code : BitVec 4) (cmd : Word) (s t : State) : Prop :=
  t = { s with status := t.status, earg := t.earg, responses := t.responses } ∧
  t.status.extractLsb' 0 4 = code ∧ t.status.extractLsb' 4 4 = s.status.extractLsb' 4 4 ∧
  t.status.extractLsb' 8 4 = cmd.extractLsb' 28 4 ∧ t.earg = cmd.extractLsb' 0 20 ∧ Responds s t 0

/-- R133: the command was refused, no register changed and `DATA` is 0. -/
def RefusedByGate (s t : State) : Prop := OnlyAnswered s t ∧ Responds s t 0

/-- R136: a sequence of commands is a success from `s`: no error is pending and every response has `ERR = 0`. -/
def RunSucceeds (ws : List Word) (s : State) : Prop :=
  Ready s ∧ ∃ t, runCommands ws s = .next t ∧ ∀ w ∈ t.responses.drop s.responses.length, w.extractLsb' 28 4 = 0#4

/-- R17, R18: among these words, run from `s`, no `LDK` executes successfully (no error pending before it or after it). -/
def NoKeyLoaded (ws : List Word) (s : State) : Prop :=
  ∀ xs w ys u v k00 k01 k10 k11, ws = xs ++ w :: ys → runCommands xs s = .next u → execWord w u = .next v →
    decode w = .ok (.ldk k00 k01 k10 k11) → Ready u → ¬ Ready v

end Sys2Proof.Machine
end

