-- ==== Sys2Proof/WellFormed.lean ====
section
/-! DEFINITION. Well-formed commands: every operand in the accepted range of spec/30_encoding.md rule R51.
Every `Instr` is encodable (its operands are 5-bit fields), so the round trip of encoding and decoding needs no such check.
A command that is not well-formed still decodes and runs: it raises the error R51 names for it. -/

namespace Sys2Proof

/-- R51: a key entry or a vector component is 0 to 26. -/
def valueAccepted (v : Field) : Bool := decide (v.toNat ≤ Config.maxValue)

/-- R51: a register index is 0 to 16. -/
def indexAccepted (r : Field) : Bool := decide (r.toNat ≤ 16)

/-- R51: every operand is in its command's accepted range. -/
def wellFormed : Instr → Bool
  | .nop => true
  | .ldk k00 k01 k10 k11 => valueAccepted k00 && valueAccepted k01 && valueAccepted k10 && valueAccepted k11
  | .det => true
  | .valk => true
  | .modinv _ => true
  | .gcd _ _ => true
  | .invk => true
  | .mule v0 v1 => valueAccepted v0 && valueAccepted v1
  | .muld v0 v1 => valueAccepted v0 && valueAccepted v1
  | .rdr r => indexAccepted r
  | .clre => true

end Sys2Proof
end

