-- ==== Sys2Proof/Certificates/Slice0/Obligations.lean ====
section
/-! DEFINITION. The statements about the engine, from the numbered rules of spec/. A rule that the spec itself marks
"[derived: ...]" or "[from general knowledge ...]" is an inference of the spec: the statement's docstring says so. -/

open Sys2Proof Sys2Proof.Machine

/-! Decoding and encoding. -/

/-- R52: a word is the command of a row exactly when `w AND mask = match`, with the operands of the pattern; no word matches two
rows; and each command has the stated number of words. -/
def Obligations.WordDecodesExactlyByItsRow : Prop :=
  (∀ w : Word,
    (decode w = .ok .nop ↔ w &&& 0xFFFFFFFF = 0x00000000) ∧
    (∀ a b c d, decode w = .ok (.ldk a b c d) ↔ w &&& 0xFFF00000 = 0x10000000 ∧
      a = w.extractLsb' 0 5 ∧ b = w.extractLsb' 5 5 ∧ c = w.extractLsb' 10 5 ∧ d = w.extractLsb' 15 5) ∧
    (decode w = .ok .det ↔ w &&& 0xFFFFFFFF = 0x20000000) ∧
    (decode w = .ok .valk ↔ w &&& 0xFFFFFFFF = 0x30000000) ∧
    (∀ a, decode w = .ok (.modinv a) ↔ w &&& 0xFFFFFFE0 = 0x40000000 ∧ a = w.extractLsb' 0 5) ∧
    (∀ a b, decode w = .ok (.gcd a b) ↔ w &&& 0xFFFFFC00 = 0x50000000 ∧ a = w.extractLsb' 0 5 ∧ b = w.extractLsb' 5 5) ∧
    (decode w = .ok .invk ↔ w &&& 0xFFFFFFFF = 0x60000000) ∧
    (∀ a b, decode w = .ok (.mule a b) ↔ w &&& 0xFFFFFC00 = 0x70000000 ∧ a = w.extractLsb' 0 5 ∧ b = w.extractLsb' 5 5) ∧
    (∀ a b, decode w = .ok (.muld a b) ↔ w &&& 0xFFFFFC00 = 0x80000000 ∧ a = w.extractLsb' 0 5 ∧ b = w.extractLsb' 5 5) ∧
    (∀ r, decode w = .ok (.rdr r) ↔ w &&& 0xFFFFFFE0 = 0x90000000 ∧ r = w.extractLsb' 0 5) ∧
    (decode w = .ok .clre ↔ w &&& 0xFFFFFFFF = 0xA0000000) ∧
    (opcodeRows.filter fun r => r.hits w).length ≤ 1) ∧
  Set.ncard { w | decode w = .ok .nop } = 1 ∧
  Set.ncard { w | ∃ a b c d, decode w = .ok (.ldk a b c d) } = 2 ^ 20 ∧
  Set.ncard { w | decode w = .ok .det } = 1 ∧
  Set.ncard { w | decode w = .ok .valk } = 1 ∧
  Set.ncard { w | ∃ a, decode w = .ok (.modinv a) } = 32 ∧
  Set.ncard { w | ∃ a b, decode w = .ok (.gcd a b) } = 1024 ∧
  Set.ncard { w | decode w = .ok .invk } = 1 ∧
  Set.ncard { w | ∃ a b, decode w = .ok (.mule a b) } = 1024 ∧
  Set.ncard { w | ∃ a b, decode w = .ok (.muld a b) } = 1024 ∧
  Set.ncard { w | ∃ r, decode w = .ok (.rdr r) } = 32 ∧
  Set.ncard { w | decode w = .ok .clre } = 1

/-- R55: exactly which words are illegal, and what executing one does; `RDR` of a reserved index decodes and then raises. -/
def Obligations.IllegalWordsAndTheirEffect : Prop :=
  (∀ w : Word, (∃ e, decode w = .error e) ↔
    11 ≤ (w.extractLsb' 28 4).toNat ∨ w.extractLsb' 20 8 ≠ 0#8 ∨
    ((w.extractLsb' 28 4).toNat ∈ [0, 2, 3, 6, 10] ∧ w.extractLsb' 0 20 ≠ 0#20) ∨
    ((w.extractLsb' 28 4).toNat ∈ [4, 9] ∧ w.extractLsb' 5 15 ≠ 0#15) ∨
    ((w.extractLsb' 28 4).toNat ∈ [5, 7, 8] ∧ w.extractLsb' 10 10 ≠ 0#10)) ∧
  (∀ (w : Word) e (s : State), decode w = .error e → Ready s → ∃ t, execWord w s = .next t ∧ RaisesError 5 w s t) ∧
  (∀ (w : Word) e (s : State), decode w = .error e → ¬ Ready s → ∃ t, execWord w s = .next t ∧ RefusedByGate s t) ∧
  (∀ (r : Field) (s : State), 17 ≤ r.toNat →
    decode (encode (.rdr r)) = .ok (.rdr r) ∧
    (Ready s → ∃ t, execWord (encode (.rdr r)) s = .next t ∧ RaisesError 5 (encode (.rdr r)) s t))

/-- Every command decodes from its own word, and from that word's four bytes at the front of a stored command list, with every
operand at every value (derived from the format and the opcode map, 30_encoding.md sections 1 and 2, and the byte order of R35). -/
def Obligations.DecodeOfEncodeIsTheCommand : Prop :=
  ∀ i : Instr, decode (encode i) = .ok i ∧ ∀ rest, decodeBytes (bytesOfWord (encode i) ++ rest) = .ok (i, rest)

/-- No two words are the same command: the word that decodes to a command is that command's word, so an error record made from
the command's word is made from the word issued (log entry 6). -/
def Obligations.EncodeOfDecodeIsTheWord : Prop :=
  ∀ (w : Word) (i : Instr), decode w = .ok i → encode i = w

/-- Sanity: words the spec writes out decode to the commands they stand for: 95_test_vectors.md section 2.1 (`NOP`, `LDK`, `DET`,
`VALK`, `INVK`, `CLRE`), 2.3 (`MODINV 14`), 2.4 (`GCD 14, 27`), 2.5 (`MULE 8, 5`, `MULD 26, 16`), and the example of R72
(`RDR 2`). -/
def Obligations.WrittenOutWordsDecode : Prop :=
  decode 0x00000000 = .ok .nop ∧ decode 0x1001C505 = .ok (.ldk 5 8 17 3) ∧ decode 0x20000000 = .ok .det ∧
  decode 0x30000000 = .ok .valk ∧ decode 0x4000000E = .ok (.modinv 14) ∧ decode 0x5000036E = .ok (.gcd 14 27) ∧
  decode 0x60000000 = .ok .invk ∧ decode 0x700000A8 = .ok (.mule 8 5) ∧ decode 0x8000021A = .ok (.muld 26 16) ∧
  decode 0x90000002 = .ok (.rdr 2) ∧ decode 0xA0000000 = .ok .clre

/-- R35: a stored word is little-endian, and decoding the stored bytes is decoding the word. -/
def Obligations.StoredWordsAreLittleEndian : Prop :=
  bytesOfWord 0x1001C505 = [0x05, 0xC5, 0x01, 0x10] ∧
  (∀ w : Word, (bytesOfWord w).length = 4 ∧
    ∀ k, k < 4 → (bytesOfWord w)[k]? = some (w.extractLsb' (8 * k) 8)) ∧
  (∀ (w : Word) (i : Instr) (rest : List Byte),
    decode w = .ok i ↔ decodeBytes (bytesOfWord w ++ rest) = .ok (i, rest))

/-- R51 and R53's errors: a command that is not well-formed still decodes; where no error is pending and the flag it needs is 1, it
raises the error R51 names, and a well-formed `LDK`, `MULE`, `MULD` or `RDR` raises none. -/
def Obligations.OperandRangesAreChecked : Prop :=
  (∀ (a b c d : Field) (s : State), Ready s →
    ∃ t, exec (.ldk a b c d) s = .next t ∧
      (if wellFormed (.ldk a b c d) then Ready t else RaisesError 2 (encode (.ldk a b c d)) s t)) ∧
  (∀ (a b : Field) (s : State), Ready s → KeyValidated s →
    ∃ t, exec (.mule a b) s = .next t ∧
      (if wellFormed (.mule a b) then Ready t else RaisesError 2 (encode (.mule a b)) s t)) ∧
  (∀ (a b : Field) (s : State), Ready s → InverseValid s →
    ∃ t, exec (.muld a b) s = .next t ∧
      (if wellFormed (.muld a b) then Ready t else RaisesError 2 (encode (.muld a b)) s t)) ∧
  (∀ (r : Field) (s : State), Ready s →
    ∃ t, exec (.rdr r) s = .next t ∧ (if wellFormed (.rdr r) then Ready t else RaisesError 5 (encode (.rdr r)) s t)) ∧
  (∀ a : Field, wellFormed (.modinv a) = true) ∧ (∀ a b : Field, wellFormed (.gcd a b) = true)

/-! Steps and the common entry sequence. -/

/-- A step takes the host's first command word and runs what it decodes to on the state with that word taken; a word put where
the next step takes it is the word it runs. The queue `inputs` the step takes the word from is the model's own (log entry 1, DESIGN
CHOICE: the spec gives the engine no queue), and that `withFetchWord` stands for the host offering a word is the model's reading of
R22 and R42 (log entry 3, DEDUCED); what a word then does is R134. -/
def Obligations.StepRunsTheDecodedCommand : Prop :=
  (∀ (s : State) (w : Word) rest (i : Instr), s.inputs = .command w :: rest → decode w = .ok i →
    step s = exec i { s with inputs := rest }) ∧
  (∀ (s : State) (w : Word) rest e, s.inputs = .command w :: rest → decode w = .error e →
    step s = execIllegal w { s with inputs := rest }) ∧
  (∀ (s : State) (nbits w : Nat), step (s.withFetchWord nbits w) = execWord (tableWord nbits w) s)

/-- R134: the common entry sequence, and the order in which the conditions of one command are looked at. -/
def Obligations.CommonEntrySequence : Prop :=
  (∀ (w : Word) (s : State), ¬ Ready s → decode w ≠ .ok .nop → (∀ r, decode w ≠ .ok (.rdr r)) → decode w ≠ .ok .clre →
    ∃ t, execWord w s = .next t ∧ RefusedByGate s t) ∧
  (∀ (w : Word) e (s : State), Ready s → decode w = .error e → ∃ t, execWord w s = .next t ∧ RaisesError 5 w s t) ∧
  (∀ (w : Word) (i : Instr) (s : State), decode w = .ok i → (Ready s ∨ i = .nop ∨ (∃ r, i = .rdr r) ∨ i = .clre) →
    execWord w s = exec i s) ∧
  (∀ (v0 v1 : Field) (s : State), Ready s → ¬ KeyValidated s →
    ∃ t, exec (.mule v0 v1) s = .next t ∧ RaisesError 6 (encode (.mule v0 v1)) s t) ∧
  (∀ (v0 v1 : Field) (s : State), Ready s → ¬ InverseValid s →
    ∃ t, exec (.muld v0 v1) s = .next t ∧ RaisesError 7 (encode (.muld v0 v1)) s t)

/-- The engine waits and keeps all its state while the host sends nothing (R5, R119, R142; the model's step on an empty queue,
log entry 2). -/
def Obligations.IdleEngineKeepsItsState : Prop :=
  ∀ s : State, s.inputs = [] → step s = .next s

/-- For every state and every word there is exactly one next state and exactly one response word of the form R53, with the error and
the flags as they are after the command (R33, R55, R119); so no step stops. The clause that executing a word leaves `inputs`, what the host
has lined up, as it was is the model's own: the spec gives the engine no queue (log entry 1, DESIGN CHOICE). -/
def Obligations.EveryWordIsAnsweredOnce : Prop :=
  (∀ (w : Word) (s : State), ∃ t d, execWord w s = .next t ∧ Responds s t d ∧ t.inputs = s.inputs) ∧
  (∀ s : State, ∃ t, step s = .next t)

/-! Reset and the invariant. -/

/-- R25: the value of every register after reset. -/
def Obligations.ResetValues : Prop :=
  let s := State.reset
  s.k00 = 0 ∧ s.k01 = 0 ∧ s.k10 = 0 ∧ s.k11 = 0 ∧ s.i00 = 0 ∧ s.i01 = 0 ∧ s.i10 = 0 ∧ s.i11 = 0 ∧ s.det = 0 ∧ s.detm = 0 ∧
  s.sinv = 0 ∧ s.gcdr = 0 ∧ s.out0 = 0 ∧ s.out1 = 0 ∧ s.status = 0 ∧ s.earg = 0 ∧ readReg .id s = 0x0015B ∧
  Ready s ∧ ¬ KeyValidated s ∧ ¬ InverseValid s ∧ s.status.extractLsb' 8 4 = 0#4 ∧ Int.gcd (keyDet s % 27) 27 ≠ 1

/-- A reset between two commands gives every register its reset value; that the host keeps its later events and the responses it
has is the model's choice (log entry 5). -/
def Obligations.ResetBetweenCommands : Prop :=
  ∀ (s : State) rest, s.inputs = .reset :: rest →
    step s = .next { State.reset with inputs := rest, responses := s.responses }

/-- R160: an edge that samples `rst` gives every register its reset value, drops `cmd_ready` and `rsp_valid`, and accepts
nothing, whatever the engine was doing. R161: it leaves no command held. That it delivers no response even with `rsp_ready = 1` is the
model's choice (log entry 16, DESIGN CHOICE), and so is that the engine becomes `State.reset` whole, with the host's two lists
emptied (log entry 5, DESIGN CHOICE). -/
def Obligations.ResetEdge : Prop :=
  ∀ (i : PortIn) (p : Port), i.rst = true →
    (portEdge i p).engine = State.reset ∧ (portOut (portEdge i p)).cmdReady = false ∧ (portOut (portEdge i p)).rsp = none ∧
    portAccepts i p = none ∧ portDelivers i p = none ∧ portPending (portEdge i p) = []

/-- The reset state meets the invariant of R26. -/
def Obligations.ResetMeetsTheInvariant : Prop := EngineInv State.reset

/-- Every step from any state that meets the invariant of R26 answers a state that meets it, whatever the host's event (the
spec marks R26 as its own derivation). -/
def Obligations.EveryStepKeepsTheInvariant : Prop :=
  ∀ s t : State, EngineInv s → step s = .next t → EngineInv t

/-- In every state reachable from reset by any sequence of command words the invariant of R26 holds (the spec marks R26 as
its own derivation). -/
def Obligations.EveryRunFromResetMeetsTheInvariant : Prop :=
  ∀ ws : List Word, ∃ t, runCommands ws State.reset = .next t ∧ EngineInv t

/-! Key load, register read and housekeeping. -/

/-- R70: `LDK`. -/
def Obligations.LdkLoadsTheKey : Prop :=
  ∀ (a b c d : Field) (s : State),
    encode (.ldk a b c d) = 0x1#4 ++ 0x00#8 ++ d ++ c ++ b ++ a ∧
    (Ready s → a.toNat ≤ 26 → b.toNat ≤ 26 → c.toNat ≤ 26 → d.toNat ≤ 26 →
      ∃ t, exec (.ldk a b c d) s = .next t ∧
        t = { s with k00 := a, k01 := b, k10 := c, k11 := d, i00 := 0, i01 := 0, i10 := 0, i11 := 0,
                     status := t.status, responses := t.responses } ∧
        ¬ KeyValidated t ∧ ¬ InverseValid t ∧ t.status.extractLsb' 0 4 = s.status.extractLsb' 0 4 ∧
        t.status.extractLsb' 6 6 = s.status.extractLsb' 6 6 ∧ Responds s t 0) ∧
    (Ready s → (26 < a.toNat ∨ 26 < b.toNat ∨ 26 < c.toNat ∨ 26 < d.toNat) →
      ∃ t, exec (.ldk a b c d) s = .next t ∧ RaisesError 2 (encode (.ldk a b c d)) s t) ∧
    (¬ Ready s → ∃ t, exec (.ldk a b c d) s = .next t ∧ RefusedByGate s t)

/-- R71: `NOP` changes nothing, and put anywhere in a sequence it changes no other command's response and no register. -/
def Obligations.NopChangesNothing : Prop :=
  encode .nop = 0x00000000 ∧
  (∀ s : State, ∃ t, exec .nop s = .next t ∧ OnlyAnswered s t ∧ Responds s t 0) ∧
  (∀ (xs ys : List Word) (s : State), ∃ t u a r b,
    runCommands (xs ++ ys) s = .next t ∧ runCommands (xs ++ encode .nop :: ys) s = .next u ∧
    a.length = s.responses.length + xs.length ∧ t.responses = a ++ b ∧ u.responses = a ++ r :: b ∧
    u = { t with responses := u.responses })

/-- R72: `RDR` answers the whole register and changes nothing; it is exempt; a reserved index raises `IllegalCommand`, which is
not recorded when an error is pending. -/
def Obligations.RdrReadsTheRegister : Prop :=
  ∀ (r : Field) (s : State),
    encode (.rdr r) = 0x9#4 ++ 0x00#8 ++ 0#5 ++ 0#5 ++ 0#5 ++ r ∧
    (∀ v, [s.k00.zeroExtend 20, s.k01.zeroExtend 20, s.k10.zeroExtend 20, s.k11.zeroExtend 20, s.i00.zeroExtend 20,
        s.i01.zeroExtend 20, s.i10.zeroExtend 20, s.i11.zeroExtend 20, s.det.signExtend 20, s.detm.zeroExtend 20,
        s.sinv.zeroExtend 20, s.gcdr.zeroExtend 20, s.out0.zeroExtend 20, s.out1.zeroExtend 20, s.status.zeroExtend 20,
        s.earg, 0x0015B#20][r.toNat]? = some v →
      ∃ t, exec (.rdr r) s = .next t ∧ OnlyAnswered s t ∧ Responds s t v) ∧
    (17 ≤ r.toNat → Ready s → ∃ t, exec (.rdr r) s = .next t ∧ RaisesError 5 (encode (.rdr r)) s t) ∧
    (17 ≤ r.toNat → ¬ Ready s → ∃ t, exec (.rdr r) s = .next t ∧ RefusedByGate s t)

/-- R21: `ID` reads as the constant `0x0015B` in every state; its fields are `M`, `N` and `IFVER`. -/
def Obligations.IdIsHardwired : Prop :=
  (0x0015B#20).extractLsb' 0 5 = 27#5 ∧ (0x0015B#20).extractLsb' 5 3 = 2#3 ∧ (0x0015B#20).extractLsb' 8 4 = 1#4 ∧
  (0x0015B#20).extractLsb' 12 8 = 0#8 ∧
  ∀ (s : State) (w : Word) (t : State), readReg .id s = 0x0015B ∧ (execWord w s = .next t → readReg .id t = 0x0015B)

/-- R73: `CLRE`. -/
def Obligations.ClreClearsTheError : Prop :=
  encode .clre = 0xA0000000 ∧
  ∀ s : State, ∃ t, exec .clre s = .next t ∧ t = { s with status := t.status, earg := 0, responses := t.responses } ∧
    Ready t ∧ t.status.extractLsb' 8 4 = 0#4 ∧ t.status.extractLsb' 4 4 = s.status.extractLsb' 4 4 ∧ Responds s t 0 ∧
    (EngineInv s → Ready s → OnlyAnswered s t)

/-! Modular linear algebra. -/

/-- R80: `DET`. -/
def Obligations.DetComputesTheDeterminant : Prop :=
  encode .det = 0x20000000 ∧
  ∀ s : State,
    (Ready s → ∃ t, exec .det s = .next t ∧ t = { s with det := t.det, responses := t.responses } ∧
      t.det.toInt = (s.k00.toNat : Int) * s.k11.toNat - s.k01.toNat * s.k10.toNat ∧
      ∃ v : Data, Responds s t v ∧ v.toInt = (s.k00.toNat : Int) * s.k11.toNat - s.k01.toNat * s.k10.toNat) ∧
    (¬ Ready s → ∃ t, exec .det s = .next t ∧ RefusedByGate s t)

/-- R82 and R83: `MODINV` answers the smallest `x` of 1 to 26 with `a * x` congruent to 1 modulo 27, or raises. -/
def Obligations.ModinvFindsTheSmallestInverse : Prop :=
  ∀ (a : Field) (s : State),
    encode (.modinv a) = 0x4#4 ++ 0x00#8 ++ 0#5 ++ 0#5 ++ 0#5 ++ a ∧
    (Ready s → ∀ x, 1 ≤ x → x ≤ 26 → a.toNat * x % 27 = 1 → (∀ y, 1 ≤ y → y < x → a.toNat * y % 27 ≠ 1) →
      modinv27 a.toNat = some x ∧
      ∃ t, exec (.modinv a) s = .next t ∧ t = { s with sinv := t.sinv, responses := t.responses } ∧
        t.sinv.toNat = x ∧ Responds s t (BitVec.ofNat 20 x)) ∧
    (Ready s → (∀ x, 1 ≤ x → x ≤ 26 → a.toNat * x % 27 ≠ 1) →
      modinv27 a.toNat = none ∧ ∃ t, exec (.modinv a) s = .next t ∧ RaisesError 3 (encode (.modinv a)) s t) ∧
    (¬ Ready s → ∃ t, exec (.modinv a) s = .next t ∧ RefusedByGate s t)

/-- The spec's own derivation R84: an inverse exists exactly when the operand is not a multiple of 3, it is the only one, it depends on
the residue only, and the table of the 32 operands. -/
def Obligations.ScalarInverseTable : Prop :=
  (∀ a : Nat, (∃ x, modinv27 a = some x) ↔ Nat.gcd a 27 = 1) ∧
  (∀ a : Nat, (∃ x, modinv27 a = some x) ↔ a % 3 ≠ 0) ∧
  (∀ a x y : Nat, modinv27 a = some x → 1 ≤ y → y ≤ 26 → a * y % 27 = 1 → y = x) ∧
  (∀ a : Nat, modinv27 a = modinv27 (a % 27)) ∧
  (List.range 32).map modinv27 =
    [none, some 1, some 14, none, some 7, some 11, none, some 4, some 17, none, some 19, some 5, none, some 25, some 2, none,
      some 22, some 8, none, some 10, some 23, none, some 16, some 20, none, some 13, some 26, none, some 1, some 14, none,
      some 7]

/-- R85: `GCD`. -/
def Obligations.GcdComputesTheGcd : Prop :=
  ∀ (a b : Field) (s : State),
    encode (.gcd a b) = 0x5#4 ++ 0x00#8 ++ 0#5 ++ 0#5 ++ b ++ a ∧
    (Ready s → ∃ t, exec (.gcd a b) s = .next t ∧ t = { s with gcdr := t.gcdr, responses := t.responses } ∧
      t.gcdr.toNat = Nat.gcd a.toNat b.toNat ∧ Responds s t (BitVec.ofNat 20 (Nat.gcd a.toNat b.toNat))) ∧
    (¬ Ready s → ∃ t, exec (.gcd a b) s = .next t ∧ RefusedByGate s t)

/-- The recursion of R86 (which the spec marks as general knowledge, log entry 15) and the value it gives: the largest common divisor, symmetric, with
the stated values against 27. -/
def Obligations.EuclidIsTheGreatestCommonDivisor : Prop :=
  (∀ a : Nat, euclid a 0 = a ∧ euclid 0 a = a) ∧
  (∀ a b : Nat, b ≠ 0 → euclid a b = euclid b (a % b)) ∧
  (∀ a b : Nat, euclid a b ∣ a ∧ euclid a b ∣ b ∧ (∀ c, c ∣ a → c ∣ b → c ∣ euclid a b) ∧ euclid a b = euclid b a) ∧
  (∀ m : Nat, m < 32 → euclid m 27 = if m ∈ [0, 27] then 27 else if m ∈ [9, 18] then 9
    else if m ∈ [3, 6, 12, 15, 21, 24, 30] then 3 else 1)

/-- R87: `VALK`. The count of the keys it validates among the 27^4 legal ones is the spec's own derivation in that rule
("derived: by counting with rule R87"). -/
def Obligations.ValkValidatesTheKey : Prop :=
  encode .valk = 0x30000000 ∧
  (∀ s : State,
    (Ready s → ∃ t, exec .valk s = .next t ∧
      t = { s with det := t.det, detm := t.detm, gcdr := t.gcdr, status := t.status, responses := t.responses } ∧
      t.det.toInt = keyDet s ∧ (t.detm.toNat : Int) = keyDet s % 27 ∧ t.gcdr.toNat = Int.gcd (keyDet s % 27) 27 ∧
      (KeyValidated t ↔ Int.gcd (keyDet s % 27) 27 = 1) ∧ (KeyValidated t ↔ keyDet s % 3 ≠ 0) ∧
      t.status.extractLsb' 0 4 = s.status.extractLsb' 0 4 ∧ t.status.extractLsb' 5 7 = s.status.extractLsb' 5 7 ∧
      Responds s t (if Int.gcd (keyDet s % 27) 27 = 1 then 1 else 0)) ∧
    (¬ Ready s → ∃ t, exec .valk s = .next t ∧ RefusedByGate s t)) ∧
  Set.ncard { k : Field × Field × Field × Field |
    k.1.toNat ≤ 26 ∧ k.2.1.toNat ≤ 26 ∧ k.2.2.1.toNat ≤ 26 ∧ k.2.2.2.toNat ≤ 26 ∧
    ∃ t, exec .valk { State.reset with k00 := k.1, k01 := k.2.1, k10 := k.2.2.1, k11 := k.2.2.2 } = .next t ∧
      KeyValidated t } = 314928

/-- R88: `INVK`. -/
def Obligations.InvkInvertsTheKey : Prop :=
  encode .invk = 0x60000000 ∧
  ∀ s : State,
    (Ready s → ∀ x : Nat, 1 ≤ x → x ≤ 26 → keyDet s % 27 * x % 27 = 1 →
      (∀ y : Nat, 1 ≤ y → y < x → keyDet s % 27 * y % 27 ≠ 1) →
      ∃ t, exec .invk s = .next t ∧
        t = { s with det := t.det, detm := t.detm, sinv := t.sinv, i00 := t.i00, i01 := t.i01, i10 := t.i10, i11 := t.i11,
                     status := t.status, responses := t.responses } ∧
        t.det.toInt = keyDet s ∧ (t.detm.toNat : Int) = keyDet s % 27 ∧ t.sinv.toNat = x ∧
        (t.i00.toNat : Int) = (s.k11.toNat : Int) * x % 27 ∧ (t.i01.toNat : Int) = -(s.k01.toNat : Int) * x % 27 ∧
        (t.i10.toNat : Int) = -(s.k10.toNat : Int) * x % 27 ∧ (t.i11.toNat : Int) = (s.k00.toNat : Int) * x % 27 ∧
        InverseValid t ∧ t.status.extractLsb' 0 5 = s.status.extractLsb' 0 5 ∧
        t.status.extractLsb' 6 6 = s.status.extractLsb' 6 6 ∧ Responds s t (t.i11 ++ t.i10 ++ t.i01 ++ t.i00)) ∧
    (Ready s → (∀ x : Nat, 1 ≤ x → x ≤ 26 → keyDet s % 27 * x % 27 ≠ 1) →
      ∃ t, exec .invk s = .next t ∧ RaisesError 3 0x60000000 s t) ∧
    (¬ Ready s → ∃ t, exec .invk s = .next t ∧ RefusedByGate s t)

/-- The spec's own derivation R89: `INVK` succeeds exactly when `VALK` answers 1, and then the inverse registers hold an inverse of the key
on both sides, in range, with `SINV` as the residue of their determinant. -/
def Obligations.InvkSucceedsExactlyOnValidKeys : Prop :=
  ∀ s : State, Ready s →
    ((∃ t, exec .invk s = .next t ∧ Ready t) ↔ ∃ t, exec .valk s = .next t ∧ Responds s t 1) ∧
    (∀ t, exec .invk s = .next t → Ready t →
      InverseOfKey t ∧ t.i00.toNat ≤ 26 ∧ t.i01.toNat ≤ 26 ∧ t.i10.toNat ≤ 26 ∧ t.i11.toNat ≤ 26 ∧
      ((t.i00.toNat : Int) * t.i11.toNat - t.i01.toNat * t.i10.toNat) % 27 = t.sinv.toNat)

/-- R7: `mod27` is the unique non-negative residue, its relation to the truncated remainder, and the bounds. -/
def Obligations.Mod27IsTheResidue : Prop :=
  (∀ z : Int, mod27 z ≤ 26 ∧ (27 : Int) ∣ z - mod27 z) ∧
  (∀ z r : Int, 0 ≤ r → r ≤ 26 → (27 : Int) ∣ z - r → r = mod27 z) ∧
  (∀ z m : Int, trem z m = z - m * z.tdiv m) ∧
  (∀ z m : Int, (0 ≤ z → 0 ≤ trem z m) ∧ (z ≤ 0 → trem z m ≤ 0)) ∧
  (∀ z : Int, (mod27 z : Int) = if 0 ≤ trem z 27 then trem z 27 else trem z 27 + 27) ∧
  (∀ a b c d : Nat, a ≤ 26 → b ≤ 26 → c ≤ 26 → d ≤ 26 →
    a * b ≤ 676 ∧ a * b + c * d ≤ 1352 ∧ -676 ≤ (a * b : Int) - c * d ∧ (a * b : Int) - c * d ≤ 676 ∧
    -676 ≤ -(a : Int) * b ∧ -(a : Int) * b ≤ 676)

/-! Block multiply. -/

/-- R100: `MULE`. -/
def Obligations.MuleMultipliesByTheKey : Prop :=
  ∀ (v0 v1 : Field) (s : State),
    encode (.mule v0 v1) = 0x7#4 ++ 0x00#8 ++ 0#5 ++ 0#5 ++ v1 ++ v0 ∧
    (Ready s → KeyValidated s → v0.toNat ≤ 26 → v1.toNat ≤ 26 →
      ∃ t, exec (.mule v0 v1) s = .next t ∧ t = { s with out0 := t.out0, out1 := t.out1, responses := t.responses } ∧
        t.out0.toNat = (s.k00.toNat * v0.toNat + s.k01.toNat * v1.toNat) % 27 ∧
        t.out1.toNat = (s.k10.toNat * v0.toNat + s.k11.toNat * v1.toNat) % 27 ∧ Responds s t (0#10 ++ t.out1 ++ t.out0)) ∧
    (Ready s → ¬ KeyValidated s → ∃ t, exec (.mule v0 v1) s = .next t ∧ RaisesError 6 (encode (.mule v0 v1)) s t) ∧
    (Ready s → KeyValidated s → (26 < v0.toNat ∨ 26 < v1.toNat) →
      ∃ t, exec (.mule v0 v1) s = .next t ∧ RaisesError 2 (encode (.mule v0 v1)) s t) ∧
    (¬ Ready s → ∃ t, exec (.mule v0 v1) s = .next t ∧ RefusedByGate s t)

/-- R101: `MULD`. -/
def Obligations.MuldMultipliesByTheInverse : Prop :=
  ∀ (v0 v1 : Field) (s : State),
    encode (.muld v0 v1) = 0x8#4 ++ 0x00#8 ++ 0#5 ++ 0#5 ++ v1 ++ v0 ∧
    (Ready s → InverseValid s → v0.toNat ≤ 26 → v1.toNat ≤ 26 →
      ∃ t, exec (.muld v0 v1) s = .next t ∧ t = { s with out0 := t.out0, out1 := t.out1, responses := t.responses } ∧
        t.out0.toNat = (s.i00.toNat * v0.toNat + s.i01.toNat * v1.toNat) % 27 ∧
        t.out1.toNat = (s.i10.toNat * v0.toNat + s.i11.toNat * v1.toNat) % 27 ∧ Responds s t (0#10 ++ t.out1 ++ t.out0)) ∧
    (Ready s → ¬ InverseValid s → ∃ t, exec (.muld v0 v1) s = .next t ∧ RaisesError 7 (encode (.muld v0 v1)) s t) ∧
    (Ready s → InverseValid s → (26 < v0.toNat ∨ 26 < v1.toNat) →
      ∃ t, exec (.muld v0 v1) s = .next t ∧ RaisesError 2 (encode (.muld v0 v1)) s t) ∧
    (¬ Ready s → ∃ t, exec (.muld v0 v1) s = .next t ∧ RefusedByGate s t)

/-- The spec's own derivation R102: the document's two-step normalization is `mod27` for every integer, and on the sums of `MULD`
its second step never fires. -/
def Obligations.DecryptNormalizationIsMod27 : Prop :=
  (∀ z : Int, documentNormalize z = mod27 z) ∧
  (∀ a b v0 v1 : Field, 0 ≤ trem ((a.toNat : Int) * v0.toNat + b.toNat * v1.toNat) 27 ∧
    (rowProduct a b v0 v1 : Int) = documentNormalize ((a.toNat : Int) * v0.toNat + b.toNat * v1.toNat))

/-- The spec's own derivation R103: in every state that meets the invariant of R26, with both flags 1, `MULE` then `MULD` gives the block back, and
`MULD` then `MULE` too. -/
def Obligations.BlockRoundTrip : Prop :=
  ∀ (v0 v1 : Field) (s : State), EngineInv s → Ready s → KeyValidated s → InverseValid s → v0.toNat ≤ 26 → v1.toNat ≤ 26 →
    (∃ t u, exec (.mule v0 v1) s = .next t ∧ exec (.muld t.out0 t.out1) t = .next u ∧ u.out0 = v0 ∧ u.out1 = v1 ∧
      Responds t u (0#10 ++ v1 ++ v0)) ∧
    (∃ t u, exec (.muld v0 v1) s = .next t ∧ exec (.mule t.out0 t.out1) t = .next u ∧ u.out0 = v0 ∧ u.out1 = v1 ∧
      Responds t u (0#10 ++ v1 ++ v0))

/-- The spec's own derivation R44: the data of `MULE` depends only on the key registers and its operands, that of `MULD` only on the inverse
registers and its operands, and a `MULE` and a `MULD` of two callers give the same data in either order. -/
def Obligations.CallersBlocksDoNotInterfere : Prop :=
  (∀ (v0 v1 : Field) (s s' : State), s.k00 = s'.k00 → s.k01 = s'.k01 → s.k10 = s'.k10 → s.k11 = s'.k11 →
    Ready s → Ready s' → KeyValidated s → KeyValidated s' → v0.toNat ≤ 26 → v1.toNat ≤ 26 →
    ∃ t t' d, exec (.mule v0 v1) s = .next t ∧ exec (.mule v0 v1) s' = .next t' ∧ Responds s t d ∧ Responds s' t' d) ∧
  (∀ (v0 v1 : Field) (s s' : State), s.i00 = s'.i00 → s.i01 = s'.i01 → s.i10 = s'.i10 → s.i11 = s'.i11 →
    Ready s → Ready s' → InverseValid s → InverseValid s' → v0.toNat ≤ 26 → v1.toNat ≤ 26 →
    ∃ t t' d, exec (.muld v0 v1) s = .next t ∧ exec (.muld v0 v1) s' = .next t' ∧ Responds s t d ∧ Responds s' t' d) ∧
  (∀ (v0 v1 c0 c1 : Field) (s : State), Ready s → KeyValidated s → InverseValid s → v0.toNat ≤ 26 → v1.toNat ≤ 26 →
    c0.toNat ≤ 26 → c1.toNat ≤ 26 →
    ∃ t u t' u' d e, exec (.mule v0 v1) s = .next t ∧ exec (.muld c0 c1) t = .next u ∧
      exec (.muld c0 c1) s = .next t' ∧ exec (.mule v0 v1) t' = .next u' ∧
      Responds s t d ∧ Responds t u e ∧ Responds s t' e ∧ Responds t' u' d)

/-! Errors. -/

/-- R132: `raise`, with the codes of R130: with no error pending it records the error and nothing else; with one pending it
records nothing. -/
def Obligations.RaiseRecordsTheFirstError : Prop :=
  ∀ (e : EngineError) (cmd : Word) (s : State), ∃ t, raise e cmd s = .next t ∧
    (Ready s → RaisesError (match e with
      | .invalidValue => 2 | .noModularInverse => 3 | .illegalCommand => 5 | .keyNotValidated => 6 | .inverseNotReady => 7)
      cmd s t) ∧
    (¬ Ready s → RefusedByGate s t)

/-- Errors are precise, over all words (R132 and the property 3 of 95_test_vectors.md part 4): a command that answers `ERR ≠ 0` changed nothing but
the error record, and that only if no error was pending. -/
def Obligations.ErrorsArePrecise : Prop :=
  ∀ (w : Word) (s t : State), execWord w s = .next t → ¬ Ready t →
    (Ready s → ∃ code ∈ [2#4, 3#4, 5#4, 6#4, 7#4], RaisesError code w s t) ∧ (¬ Ready s → OnlyAnswered s t)

/-- R131: what each command can raise, and what is recorded. -/
def Obligations.ErrorsOfEachCommand : Prop :=
  ∀ (w : Word) (s t : State), Ready s → execWord w s = .next t → ¬ Ready t →
    ∃ code, RaisesError code w s t ∧
      match decode w with
      | .error _ => code = 5#4
      | .ok .nop => False
      | .ok .clre => False
      | .ok (.rdr r) => code = 5#4 ∧ 17 ≤ r.toNat
      | .ok (.ldk a b c d) => code = 2#4 ∧ (27 ≤ a.toNat ∨ 27 ≤ b.toNat ∨ 27 ≤ c.toNat ∨ 27 ≤ d.toNat)
      | .ok .det => False
      | .ok .valk => False
      | .ok (.gcd _ _) => False
      | .ok (.modinv _) => code = 3#4
      | .ok .invk => code = 3#4
      | .ok (.mule _ _) => (code = 6#4 ∧ ¬ KeyValidated s) ∨ (code = 2#4 ∧ KeyValidated s)
      | .ok (.muld _ _) => (code = 7#4 ∧ ¬ InverseValid s) ∨ (code = 2#4 ∧ InverseValid s)

/-- R133: while an error is pending every word but those of `NOP`, `RDR` and `CLRE` is refused; those three execute normally. -/
def Obligations.PendingErrorGatesCommands : Prop :=
  (∀ (w : Word) (s : State), ¬ Ready s → decode w ≠ .ok .nop → (∀ r, decode w ≠ .ok (.rdr r)) → decode w ≠ .ok .clre →
    ∃ t, execWord w s = .next t ∧ RefusedByGate s t) ∧
  (∀ (s : State) (r : Field), ¬ Ready s → r.toNat ≤ 16 →
    (∃ t, exec .nop s = .next t ∧ OnlyAnswered s t ∧ Responds s t 0) ∧
    (∃ t reg, regOfIndex r = some reg ∧ exec (.rdr r) s = .next t ∧ OnlyAnswered s t ∧ Responds s t (readReg reg s)) ∧
    (∃ t, exec .clre s = .next t ∧ Ready t))

/-- R135: `CLRE` after a failing command gives exactly the state before it (but for the responses the host has); while an error is
pending nothing but `CLRE` ends it and no second error is recorded; reset clears it too. -/
def Obligations.ClreUndoesAFailingCommand : Prop :=
  (∀ (w : Word) (s t : State), EngineInv s → Ready s → execWord w s = .next t → ¬ Ready t →
    ∃ u, exec .clre t = .next u ∧ OnlyAnswered s u) ∧
  (∀ (w : Word) (s t : State), ¬ Ready s → execWord w s = .next t → decode w ≠ .ok .clre → OnlyAnswered s t) ∧
  (∀ s : State, Ready (takeReset s))

/-- After an error the rest of a blindly issued call has no effect: any run of words without `CLRE` from a state with an error pending
changes no register, and every response carries the pending code (R16, R120, R168). -/
def Obligations.PendingErrorSkipsTheRestOfACall : Prop :=
  ∀ (ws : List Word) (s : State), ¬ Ready s → (∀ w ∈ ws, decode w ≠ .ok .clre) →
    ∃ t rs, runCommands ws s = .next t ∧ OnlyAnswered s t ∧ t.responses = s.responses ++ rs ∧ rs.length = ws.length ∧
      ∀ r ∈ rs, r.extractLsb' 28 4 = s.status.extractLsb' 0 4

/-! The registers and the status over all words. -/

/-- The column "Written by" of 10_state.md section 1: which words can change a data register. -/
def Obligations.RegistersChangeOnlyByTheirCommands : Prop :=
  ∀ (w : Word) (s t : State), execWord w s = .next t →
    ((t.k00 ≠ s.k00 ∨ t.k01 ≠ s.k01 ∨ t.k10 ≠ s.k10 ∨ t.k11 ≠ s.k11) → ∃ a b c d, decode w = .ok (.ldk a b c d)) ∧
    ((t.i00 ≠ s.i00 ∨ t.i01 ≠ s.i01 ∨ t.i10 ≠ s.i10 ∨ t.i11 ≠ s.i11) →
      (∃ a b c d, decode w = .ok (.ldk a b c d)) ∨ decode w = .ok .invk) ∧
    (t.det ≠ s.det → decode w = .ok .det ∨ decode w = .ok .valk ∨ decode w = .ok .invk) ∧
    (t.detm ≠ s.detm → decode w = .ok .valk ∨ decode w = .ok .invk) ∧
    (t.sinv ≠ s.sinv → (∃ a, decode w = .ok (.modinv a)) ∨ decode w = .ok .invk) ∧
    (t.gcdr ≠ s.gcdr → (∃ a b, decode w = .ok (.gcd a b)) ∨ decode w = .ok .valk) ∧
    ((t.out0 ≠ s.out0 ∨ t.out1 ≠ s.out1) →
      (∃ a b, decode w = .ok (.mule a b)) ∨ (∃ a b, decode w = .ok (.muld a b))) ∧
    (t.earg ≠ s.earg → (Ready s ∧ ¬ Ready t) ∨ decode w = .ok .clre)

/-- R19: the layout `RDR STATUS` answers, and for every field which words set it and which clear it. -/
def Obligations.StatusFieldsChangeOnlyAsStated : Prop :=
  (∀ s : State, s.status.extractLsb' 6 2 = 0#2 →
    ∃ t v, exec (.rdr 14) s = .next t ∧ Responds s t v ∧ v.extractLsb' 0 4 = s.status.extractLsb' 0 4 ∧
      v.getLsbD 4 = s.status.getLsbD 4 ∧ v.getLsbD 5 = s.status.getLsbD 5 ∧ v.extractLsb' 6 2 = 0#2 ∧
      v.extractLsb' 8 4 = s.status.extractLsb' 8 4 ∧ v.extractLsb' 12 8 = 0#8) ∧
  (∀ (w : Word) (s t : State), execWord w s = .next t →
    (t.status.extractLsb' 0 4 ≠ s.status.extractLsb' 0 4 →
      (Ready s ∧ ¬ Ready t) ∨ (decode w = .ok .clre ∧ Ready t)) ∧
    (¬ KeyValidated s → KeyValidated t → decode w = .ok .valk) ∧
    (KeyValidated s → ¬ KeyValidated t → decode w = .ok .valk ∨ ∃ a b c d, decode w = .ok (.ldk a b c d)) ∧
    (¬ InverseValid s → InverseValid t → decode w = .ok .invk) ∧
    (InverseValid s → ¬ InverseValid t → ∃ a b c d, decode w = .ok (.ldk a b c d)) ∧
    t.status.extractLsb' 6 2 = s.status.extractLsb' 6 2 ∧
    (t.status.extractLsb' 8 4 ≠ s.status.extractLsb' 8 4 →
      (Ready s ∧ ¬ Ready t ∧ t.status.extractLsb' 8 4 = w.extractLsb' 28 4) ∨
      (decode w = .ok .clre ∧ t.status.extractLsb' 8 4 = 0#4))) ∧
  State.reset.status = 0

/-- The spec's own derivation R164: after every successful `LDK`, even of the same key, `MULE` raises `KeyNotValidated` and `MULD` raises
`InverseNotReady`. -/
def Obligations.LdkInvalidatesKeyAndInverse : Prop :=
  ∀ (a b c d v0 v1 : Field) (s t : State), Ready s → exec (.ldk a b c d) s = .next t → Ready t →
    (∃ u, exec (.mule v0 v1) t = .next u ∧ RaisesError 6 (encode (.mule v0 v1)) t u) ∧
    (∃ u, exec (.muld v0 v1) t = .next u ∧ RaisesError 7 (encode (.muld v0 v1)) t u)

/-- R17 and R18 over whole histories: after any command words from reset, `KV` is 1 exactly when some `VALK` answered 1 and no
`LDK` has executed successfully since, and `IV` is 1 exactly when some `INVK` succeeded and no `LDK` has since. -/
def Obligations.FlagsRecordTheHistory : Prop :=
  ∀ (ws : List Word) (t : State), runCommands ws State.reset = .next t →
    (KeyValidated t ↔ ∃ xs ys u v, ws = xs ++ encode .valk :: ys ∧ runCommands xs State.reset = .next u ∧
      exec .valk u = .next v ∧ Responds u v 1 ∧ NoKeyLoaded ys v) ∧
    (InverseValid t ↔ ∃ xs ys u v, ws = xs ++ encode .invk :: ys ∧ runCommands xs State.reset = .next u ∧
      exec .invk u = .next v ∧ Ready u ∧ Ready v ∧ NoKeyLoaded ys v)

/-- The initialisation order of R162 with the success condition of R136 (both marked by the spec as derived): for every valid key and
all blocks of values, loading, validating and inverting the key and then the blocks of an `ENCRYPT` and of a `DECRYPT`
(R58; over zero blocks as log entry 17 chooses) all succeed. -/
def Obligations.InitialisedEngineRunsItsBlocks : Prop :=
  ∀ (a b c d : Field) (bs cs : List (Field × Field)) (s : State), Ready s →
    a.toNat ≤ 26 → b.toNat ≤ 26 → c.toNat ≤ 26 → d.toNat ≤ 26 →
    Int.gcd (((a.toNat : Int) * d.toNat - b.toNat * c.toNat) % 27) 27 = 1 →
    (∀ p ∈ bs ++ cs, p.1.toNat ≤ 26 ∧ p.2.toNat ≤ 26) →
    RunSucceeds ((expand (.dkey a b c d) ++ expand (.encrypt bs) ++ expand (.decrypt cs)).map encode) s

/-! The ports. -/

/-- R32 and R33: a word is accepted exactly at an edge with `rst = 0`, `cmd_valid = 1` and `cmd_ready = 1`; `cmd_ready` is 1 only when
no command is held and no response is offered; an offered response stays until it is accepted. That the engine is
ready in the very cycle after a delivery is the model's choice (log entry 10). -/
def Obligations.HandshakeHoldsOneCommand : Prop :=
  (∀ (i : PortIn) (p : Port) (w : Word), portAccepts i p = some w ↔
    i.rst = false ∧ i.cmdValid = true ∧ (portOut p).cmdReady = true ∧ w = i.cmdData) ∧
  (∀ p : Port, (portOut p).cmdReady = true → portPending p = [] ∧ portOffered p = []) ∧
  (∀ (i : PortIn) (p : Port) (r : Word), i.rst = false → (portOut p).rsp = some r → i.rspReady = false →
    portEdge i p = p) ∧
  (∀ (i : PortIn) (p : Port) (r : Word), i.rst = false → (portOut p).rsp = some r → i.rspReady = true →
    portDelivers i p = some r ∧ (portOut (portEdge i p)).rsp = none ∧ (portOut (portEdge i p)).cmdReady = true) ∧
  (∀ (i : PortIn) (p : Port) (w : Word), portAccepts i p = some w →
    portPending (portEdge i p) = [w] ∧ (portOut (portEdge i p)).cmdReady = false ∧ (portOut (portEdge i p)).rsp = none)

/-- Over any edges without `rst`, whatever the latencies, the handshake is a run of the accepted words in their order (R33, R36): all but the
word in flight have executed, and the responses delivered, with the one on offer, are exactly their responses in order. That the
word in flight has written nothing yet is the model's choice: R33 allows its writes before the response is offered (log entry
10, DESIGN CHOICE). -/
def Obligations.HandshakeRefinesARun : Prop :=
  ∀ (is : List PortIn) (s : State) (n : Nat), (∀ i ∈ is, i.rst = false) →
    let p : Port := { engine := s, phase := .idle, drawn := n }
    ∃ ws, ws ++ portPending (portRun is p) = portAccepted is p ∧ runCommands ws s = .next (portRun is p).engine ∧
      (portRun is p).engine.responses = s.responses ++ portDelivered is p ++ portOffered (portRun is p)

/-- R170: every accepted command gets its response offered after finitely many edges without `rst`, at least one (R33); the latencies
are free values (log entry 4). The second clause is the model's choice, no liveness statement of the spec: that `cmd_ready` rises after
finitely many edges after a reset rests on the finite `resetRecovery` of log entry 4, and that the engine then is `State.reset`
whole, with the host's two lists emptied, on log entry 5 (DESIGN CHOICE). -/
def Obligations.EveryAcceptedCommandIsAnswered : Prop :=
  (∀ (i : PortIn) (p : Port) (w : Word), portAccepts i p = some w →
    ∃ n, 1 ≤ n ∧ ∀ is : List PortIn, is.length = n → (∀ j ∈ is, j.rst = false) →
      ∃ t r, execWord w p.engine = .next t ∧ t.responses = p.engine.responses ++ [r] ∧
        portOffered (portRun is (portEdge i p)) = [r] ∧ (portRun is (portEdge i p)).engine = t) ∧
  (∀ (i : PortIn) (p : Port), i.rst = true →
    ∃ n, ∀ is : List PortIn, is.length = n → (∀ j ∈ is, j.rst = false) →
      (portOut (portRun is (portEdge i p))).cmdReady = true ∧ (portRun is (portEdge i p)).engine = State.reset)

/-! Calls of the host around the commands. -/

/-- R110 and R111: the codec's table, that it is a bijection between the 27 symbols and 0 to 26, and that it refuses everything else
(the spec marks the ASCII codes of the symbols as general knowledge, log entry 13). -/
def Obligations.CodecBijection : Prop :=
  ("abcdefghijklmnopqrstuvwxyz".toList.map symbolToValue = (List.range 26).map fun k => .ok (BitVec.ofNat 5 (k + 1))) ∧
  symbolToValue ' ' = .ok 0 ∧
  (∀ n : Field, n.toNat ≤ 26 → ∃ c, valueToSymbol n = .ok c ∧ symbolToValue c = .ok n) ∧
  (∀ n : Field, 26 < n.toNat → valueToSymbol n = .error .invalidValue) ∧
  (∀ (c : Char) (n : Field), symbolToValue c = .ok n → valueToSymbol n = .ok c ∧ n.toNat ≤ 26) ∧
  (∀ c : Char, c ≠ ' ' → ¬ ('a'.toNat ≤ c.toNat ∧ c.toNat ≤ 'z'.toNat) → symbolToValue c = .error .invalidSymbol)

/-- The document's round trip (95_test_vectors.md S5) through the sequences of R113 and R115: from any state that meets the invariant of R26, with
a validated key and no error pending, decrypting the ciphertext of a text over the alphabet gives the padded text. -/
def Obligations.TextRoundTrip : Prop :=
  ∀ (text : List Char) (s : State), EngineInv s → Ready s → KeyValidated s →
    (∀ c ∈ text, ∃ n, symbolToValue c = .ok n) →
    ∃ cipher t u, hostEncrypt text s = (.ok cipher, t) ∧ cipher.length = (padText text).length ∧
      cipher.length % 2 = 0 ∧ hostDecrypt cipher t = (.ok (padText text), u)

/-- R116: a ciphertext of odd length fails with `InvalidInputLength` (code 4) before any command. -/
def Obligations.OddCiphertextIsRefusedByTheHost : Prop :=
  ∀ (text : List Char) (s : State), text.length % 2 = 1 →
    hostDecrypt text s = (.error .invalidInputLength, s) ∧ hostErrorCode .invalidInputLength = 4

/-- A text that is not over the alphabet fails with `InvalidSymbol` before any command, in `encrypt` and in `decrypt`
(93_implementation_defined.md U7), and an empty text issues no command (95_test_vectors.md T3): the engine's state, its responses
included, is unchanged. For `decrypt` R115 alone would put `INVK` before the mapping (log entry 13). -/
def Obligations.TextsThatIssueNoCommand : Prop :=
  (∀ (text : List Char) (s : State), (∃ c ∈ text, ∀ n, symbolToValue c.toLower ≠ .ok n) →
    hostEncrypt text s = (.error .invalidSymbol, s)) ∧
  (∀ (text : List Char) (s : State), text.length % 2 = 0 → (∃ c ∈ text, ∀ n, symbolToValue c ≠ .ok n) →
    hostDecrypt text s = (.error .invalidSymbol, s)) ∧
  (∀ s : State, hostEncrypt [] s = (.ok [], s) ∧ hostDecrypt [] s = (.ok [], s)) ∧
  hostErrorCode .invalidSymbol = 1

/-- A call on a key that is not validated fails as a whole (R112, R118): no symbol comes out, the code is `KeyNotValidated`, the error is
cleared, and the engine is as before (the host's sequences: log entry 13). -/
def Obligations.EncryptOnUnvalidatedKeyFails : Prop :=
  ∀ (text : List Char) (s : State), EngineInv s → Ready s → ¬ KeyValidated s → text ≠ [] →
    (∀ c ∈ text, ∃ n, symbolToValue c = .ok n) →
    ∃ t, hostEncrypt text s = (.error (.engine 6), t) ∧ OnlyAnswered s t

/-- R112: a key is accepted by `LDK` and `VALK` exactly when its determinant is coprime to 27, and then it is loaded and validated. -/
def Obligations.HostAcceptsExactlyValidKeys : Prop :=
  ∀ (a b c d : Field) (s : State), Ready s → a.toNat ≤ 26 → b.toNat ≤ 26 → c.toNat ≤ 26 → d.toNat ≤ 26 →
    ∃ ok t, hostAcceptKey a b c d s = (.ok ok, t) ∧ t.k00 = a ∧ t.k01 = b ∧ t.k10 = c ∧ t.k11 = d ∧
      (ok = true ↔ Int.gcd (((a.toNat : Int) * d.toNat - b.toNat * c.toNat) % 27) 27 = 1) ∧ (KeyValidated t ↔ ok = true)

/-- R58: the expansions of the pseudo-instructions. Over zero blocks, which R58 does not write, those of `ENCRYPT` and `DECRYPT` are the
model's choice (log entry 17, DESIGN CHOICE). -/
def Obligations.PseudoInstructionsExpand : Prop :=
  (∀ a b c d : Field, expand (.key a b c d) = [.ldk a b c d, .valk] ∧ expand (.dkey a b c d) = [.ldk a b c d, .valk, .invk]) ∧
  expand .rds = [.rdr 14] ∧
  (∀ bs : List (Field × Field), (expand (.encrypt bs)).length = bs.length ∧ (expand (.decrypt bs)).length = bs.length + 1 ∧
    (expand (.decrypt bs))[0]? = some .invk ∧
    ∀ k v, bs[k]? = some v → (expand (.encrypt bs))[k]? = some (.mule v.1 v.2) ∧
      (expand (.decrypt bs))[k + 1]? = some (.muld v.1 v.2))
end

