-- ==== Sys2Proof/Laws/Arith.lean ====
section
/-! SUPPORT. What the arithmetic functions answer, in terms of the integers' own operations. -/

namespace Sys2Proof.Machine

/-- `mod27` is the integers' non-negative remainder. -/
theorem mod27_cast (z : Int) : (mod27 z : Int) = z % 27 := by
  unfold mod27; omega

theorem mod27_le (z : Int) : mod27 z ≤ 26 := by
  have := mod27_cast z; omega

/-- On naturals `mod27` is the remainder. -/
theorem mod27_nat (n : Nat) : mod27 (n : Int) = n % 27 := by
  have := mod27_cast n; omega

/-- The search of R83 has found `x` exactly when `x` is the first of 1 to 26 that fits. -/
theorem modinv27_eq_some (a x : Nat) :
    modinv27 a = some x ↔ 1 ≤ x ∧ x ≤ 26 ∧ a * x % 27 = 1 ∧ ∀ y, 1 ≤ y → y < x → a * y % 27 ≠ 1 := by
  have key : ∀ y : Nat, (mod27 ((a : Int) * (y : Int)) == 1) = true ↔ a * y % 27 = 1 := by
    intro y
    rw [← Nat.cast_mul, mod27_nat, beq_iff_eq]
  unfold modinv27
  rw [List.find?_range'_eq_some]
  simp only [key, List.mem_range'_1, ne_eq, Bool.not_eq_true', beq_eq_false_iff_ne]
  constructor
  · rintro ⟨h1, h2, h3⟩
    refine ⟨by omega, by omega, h1, fun y hy hyx => ?_⟩
    have := h3 y (by omega) hyx
    rw [← Nat.cast_mul, mod27_nat] at this
    exact this
  · rintro ⟨h1, h2, h3, h4⟩
    refine ⟨h3, by omega, fun y hy hyx => ?_⟩
    rw [← Nat.cast_mul, mod27_nat]
    exact h4 y (by omega) hyx

/-- The search of R83 fails exactly when none of 1 to 26 fits. -/
theorem modinv27_eq_none (a : Nat) : modinv27 a = none ↔ ∀ x, 1 ≤ x → x ≤ 26 → a * x % 27 ≠ 1 := by
  unfold modinv27
  rw [List.find?_eq_none]
  simp only [List.mem_range'_1, beq_iff_eq]
  constructor
  · intro h x h1 h2
    have := h x (by omega)
    rwa [← Nat.cast_mul, mod27_nat] at this
  · intro h x hx
    rw [← Nat.cast_mul, mod27_nat]
    exact h x (by omega) (by omega)

/-- The fuel of the Euclidean recursion is enough. -/
theorem gcdFuel_eq (fuel a b : Nat) (h : b ≤ fuel) : gcdFuel fuel a b = Nat.gcd a b := by
  induction fuel generalizing a b with
  | zero => obtain rfl : b = 0 := by omega
            simp [gcdFuel]
  | succ n ih =>
    unfold gcdFuel
    split
    · simp [*]
    · have hb := Nat.mod_lt a (Nat.pos_of_ne_zero ‹_›)
      rw [ih b (a % b) (by omega), Nat.gcd_comm b, ← Nat.gcd_rec, Nat.gcd_comm]

theorem euclid_eq (a b : Nat) : euclid a b = Nat.gcd a b := gcdFuel_eq b a b (le_refl b)

/-- A value below 32 is kept by a 5-bit register. -/
theorem toField_toNat (n : Nat) (h : n < 32) : (toField n).toNat = n := by
  unfold toField; rw [BitVec.toNat_ofNat]; omega

/-- The 16-bit register keeps every determinant, of legal register contents or not. -/
theorem toDet_determinant (a b c d : Field) : (toDet (determinant a b c d)).toInt = determinant a b c d := by
  have ha := a.isLt; have hb := b.isLt; have hc := c.isLt; have hd := d.isLt
  unfold toDet determinant
  rw [BitVec.toInt_ofInt]
  have h1 : a.toNat * d.toNat ≤ 31 * 31 := Nat.mul_le_mul (by omega) (by omega)
  have h2 : b.toNat * c.toNat ≤ 31 * 31 := Nat.mul_le_mul (by omega) (by omega)
  rw [← Nat.cast_mul, ← Nat.cast_mul]
  generalize a.toNat * d.toNat = p at *
  generalize b.toNat * c.toNat = q at *
  apply Int.bmod_eq_of_le <;> omega

/-- `sext_20` keeps the value of `DET`. -/
theorem sext20_toInt (d : BitVec 16) : (sext20 d).toInt = d.toInt := by
  unfold sext20; exact BitVec.toInt_signExtend_of_le (by omega)

theorem zext20_toNat (v : Field) : (zext20 v).toNat = v.toNat := by
  have := v.isLt
  unfold zext20 BitVec.zeroExtend
  rw [BitVec.toNat_setWidth]
  exact Nat.mod_eq_of_lt (by omega)

/-- One component of a product, on naturals. -/
theorem rowProduct_eq (a b v0 v1 : Field) : rowProduct a b v0 v1 = (a.toNat * v0.toNat + b.toNat * v1.toNat) % 27 := by
  unfold rowProduct; rw [← mod27_nat]; push_cast; rfl

theorem rowProduct_le (a b v0 v1 : Field) : rowProduct a b v0 v1 ≤ 26 := mod27_le _

end Sys2Proof.Machine
end

