-- ==== Sys2Proof/Laws/Decode.lean ====
section
/-! SUPPORT. The fields of a packed command word (R50). -/

namespace Sys2Proof

/-- The operand fields together are the low 20 bits, the opcode the high 4, the reserved bits are 0. -/
@[simp] theorem opField_pack (op : BitVec 4) (f3 f2 f1 f0 : Field) : opField (packWord op f3 f2 f1 f0) = op := by
  apply BitVec.eq_of_getLsbD_eq
  intro i hi
  unfold opField packWord
  interval_cases i <;> rw [BitVec.getLsbD_extractLsb'] <;> (repeat rw [BitVec.getLsbD_append]) <;> simp

@[simp] theorem rsvField_pack (op : BitVec 4) (f3 f2 f1 f0 : Field) : rsvField (packWord op f3 f2 f1 f0) = 0#8 := by
  apply BitVec.eq_of_getLsbD_eq
  intro i hi
  unfold rsvField packWord
  interval_cases i <;> rw [BitVec.getLsbD_extractLsb'] <;> (repeat rw [BitVec.getLsbD_append]) <;> simp

@[simp] theorem field0_pack (op : BitVec 4) (f3 f2 f1 f0 : Field) : field0 (packWord op f3 f2 f1 f0) = f0 := by
  apply BitVec.eq_of_getLsbD_eq
  intro i hi
  unfold field0 packWord
  interval_cases i <;> rw [BitVec.getLsbD_extractLsb'] <;> (repeat rw [BitVec.getLsbD_append]) <;> simp

@[simp] theorem field1_pack (op : BitVec 4) (f3 f2 f1 f0 : Field) : field1 (packWord op f3 f2 f1 f0) = f1 := by
  apply BitVec.eq_of_getLsbD_eq
  intro i hi
  unfold field1 packWord
  interval_cases i <;> rw [BitVec.getLsbD_extractLsb'] <;> (repeat rw [BitVec.getLsbD_append]) <;> simp

@[simp] theorem field2_pack (op : BitVec 4) (f3 f2 f1 f0 : Field) : field2 (packWord op f3 f2 f1 f0) = f2 := by
  apply BitVec.eq_of_getLsbD_eq
  intro i hi
  unfold field2 packWord
  interval_cases i <;> rw [BitVec.getLsbD_extractLsb'] <;> (repeat rw [BitVec.getLsbD_append]) <;> simp

@[simp] theorem field3_pack (op : BitVec 4) (f3 f2 f1 f0 : Field) : field3 (packWord op f3 f2 f1 f0) = f3 := by
  apply BitVec.eq_of_getLsbD_eq
  intro i hi
  unfold field3 packWord
  interval_cases i <;> rw [BitVec.getLsbD_extractLsb'] <;> (repeat rw [BitVec.getLsbD_append]) <;> simp

/-- A word is its six fields. -/
theorem packWord_fields (w : Word) (h : rsvField w = 0#8) :
    packWord (opField w) (field3 w) (field2 w) (field1 w) (field0 w) = w := by
  apply BitVec.eq_of_getLsbD_eq
  intro i hi
  have hr : ∀ j < 8, w.getLsbD (20 + j) = false := by
    intro j hj
    have := congrArg (fun b : BitVec 8 => b.getLsbD j) h
    simpa [rsvField, BitVec.getLsbD_extractLsb', hj] using this
  have r0 := hr 0 (by omega); have r1 := hr 1 (by omega); have r2 := hr 2 (by omega); have r3 := hr 3 (by omega)
  have r4 := hr 4 (by omega); have r5 := hr 5 (by omega); have r6 := hr 6 (by omega); have r7 := hr 7 (by omega)
  simp at r0 r1 r2 r3 r4 r5 r6 r7
  unfold packWord opField field0 field1 field2 field3
  interval_cases i <;> (repeat rw [BitVec.getLsbD_append]) <;> simp [r0, r1, r2, r3, r4, r5, r6, r7]

/-! The opcode map as a chain of tests, and each mask as a test of fields (R52). -/

theorem decodeRows_nil (w : Word) : decodeRows [] w = Except.error (illegalReason w) := rfl

theorem decodeRows_cons (w : Word) (r : Row) (l : List Row) :
    decodeRows (r :: l) w = if w &&& r.mask = r.matchBits then Except.ok (r.build w) else decodeRows l w := by
  unfold decodeRows
  rw [List.find?_cons]
  by_cases h : w &&& r.mask = r.matchBits
  · simp [Row.hits, h]
  · have hf : r.hits w = false := by simpa [Row.hits] using h
    simp [hf, h]

theorem decode_eq (w : Word) :
    decode w =
      if w &&& 0xFFFFFFFF = 0x00000000 then Except.ok .nop
      else if w &&& 0xFFF00000 = 0x10000000 then Except.ok (.ldk (field0 w) (field1 w) (field2 w) (field3 w))
      else if w &&& 0xFFFFFFFF = 0x20000000 then Except.ok .det
      else if w &&& 0xFFFFFFFF = 0x30000000 then Except.ok .valk
      else if w &&& 0xFFFFFFE0 = 0x40000000 then Except.ok (.modinv (field0 w))
      else if w &&& 0xFFFFFC00 = 0x50000000 then Except.ok (.gcd (field0 w) (field1 w))
      else if w &&& 0xFFFFFFFF = 0x60000000 then Except.ok .invk
      else if w &&& 0xFFFFFC00 = 0x70000000 then Except.ok (.mule (field0 w) (field1 w))
      else if w &&& 0xFFFFFC00 = 0x80000000 then Except.ok (.muld (field0 w) (field1 w))
      else if w &&& 0xFFFFFFE0 = 0x90000000 then Except.ok (.rdr (field0 w))
      else if w &&& 0xFFFFFFFF = 0xA0000000 then Except.ok .clre
      else Except.error (illegalReason w) := by
  unfold decode opcodeRows
  simp only [decodeRows_cons, decodeRows_nil]

/-- A bit of a word from one of its fields. -/
theorem bit_of_extract {w : Nat} {x : BitVec w} {k n : Nat} {v : BitVec n} (h : x.extractLsb' k n = v) (i : Nat) (hi : i < n) :
    x.getLsbD (k + i) = v.getLsbD i := by
  rw [← h, BitVec.getLsbD_extractLsb']; simp [hi]

/-- A mask that keeps the bits from `k` up, `k` at most 20, as a test of the opcode, the reserved bits and the operand bits from `k`. -/
theorem mask_iff (w : Word) (op : BitVec 4) (k : Nat) (hk : k ≤ 20) :
    w &&& (BitVec.allOnes 32 <<< k) = op ++ 0#28 ↔
      opField w = op ∧ rsvField w = 0#8 ∧ w.extractLsb' k (20 - k) = 0#(20 - k) := by
  have hm : ∀ i, i < 32 → (w &&& (BitVec.allOnes 32 <<< k)).getLsbD i = (w.getLsbD i && decide (k ≤ i)) := by
    intro i hi
    rw [BitVec.getLsbD_and, BitVec.getLsbD_shiftLeft, BitVec.getLsbD_allOnes]
    by_cases hki : k ≤ i
    · simp [hi, hki, Nat.not_lt.2 hki, show i - k < 32 by omega]
    · simp [hki, Nat.lt_of_not_le hki]
  have hp : ∀ i, (op ++ 0#28 : Word).getLsbD i = if i < 28 then false else op.getLsbD (i - 28) := by
    intro i; rw [BitVec.getLsbD_append]; by_cases h : i < 28 <;> simp [h]
  constructor
  · intro h
    have hb : ∀ i, i < 32 → k ≤ i → w.getLsbD i = if i < 28 then false else op.getLsbD (i - 28) := by
      intro i hi hki
      have := congrArg (fun b : Word => b.getLsbD i) h
      simp only [hm i hi, hp] at this
      simpa [hki] using this
    refine ⟨?_, ?_, ?_⟩ <;> apply BitVec.eq_of_getLsbD_eq <;> intro i hi
    · unfold opField; rw [BitVec.getLsbD_extractLsb', hb _ (by omega) (by omega)]; simp [hi]
    · unfold rsvField; rw [BitVec.getLsbD_extractLsb', hb _ (by omega) (by omega)]; simp [show 20 + i < 28 by omega]
    · rw [BitVec.getLsbD_extractLsb', hb _ (by omega) (by omega)]; simp [show k + i < 28 by omega]
  · rintro ⟨ho, hr, hf⟩
    apply BitVec.eq_of_getLsbD_eq
    intro i hi
    rw [hm i hi, hp]
    rcases Nat.lt_or_ge i k with h | h
    · simp [Nat.not_le.2 h, show i < 28 by omega]
    · rcases Nat.lt_or_ge i 20 with h20 | h20
      · have := bit_of_extract hf (i - k) (by omega)
        rw [show k + (i - k) = i by omega] at this
        simp [this, show i < 28 by omega]
      · rcases Nat.lt_or_ge i 28 with h28 | h28
        · have := bit_of_extract hr (i - 20) (by omega)
          rw [show 20 + (i - 20) = i by omega] at this
          simp [this, h28]
        · have := bit_of_extract ho (i - 28) (by omega)
          rw [show 28 + (i - 28) = i by omega] at this
          simp [this, h, Nat.not_lt.2 h28]

/-! The masks of R52, the decoder in terms of fields, and the operand bits of a packed word and of a word with zero operand bits. -/

/-- A command without operands: every bit is fixed. -/
theorem mask_all (w : Word) (op : BitVec 4) (v : Word) (hv : v = op ++ 0#28) :
    w &&& 0xFFFFFFFF = v ↔ opField w = op ∧ rsvField w = 0#8 ∧ w.extractLsb' 0 20 = 0#20 := by
  rw [← mask_iff w op 0 (by omega), hv]; rfl

/-- A command with one operand. -/
theorem mask_from5 (w : Word) (op : BitVec 4) (v : Word) (hv : v = op ++ 0#28) :
    w &&& 0xFFFFFFE0 = v ↔ opField w = op ∧ rsvField w = 0#8 ∧ w.extractLsb' 5 15 = 0#15 := by
  rw [← mask_iff w op 5 (by omega), hv]; rfl

/-- A command with two operands. -/
theorem mask_from10 (w : Word) (op : BitVec 4) (v : Word) (hv : v = op ++ 0#28) :
    w &&& 0xFFFFFC00 = v ↔ opField w = op ∧ rsvField w = 0#8 ∧ w.extractLsb' 10 10 = 0#10 := by
  rw [← mask_iff w op 10 (by omega), hv]; rfl

/-- A command with four operands. -/
theorem mask_from20 (w : Word) (op : BitVec 4) (v : Word) (hv : v = op ++ 0#28) :
    w &&& 0xFFF00000 = v ↔ opField w = op ∧ rsvField w = 0#8 := by
  have := mask_iff w op 20 (by omega)
  rw [hv, show (0xFFF00000 : Word) = BitVec.allOnes 32 <<< 20 by decide, this]
  exact ⟨fun h => ⟨h.1, h.2.1⟩, fun h => ⟨h.1, h.2, BitVec.of_length_zero⟩⟩

theorem decode_fields (w : Word) :
    decode w =
      if opField w = 0 ∧ rsvField w = 0#8 ∧ w.extractLsb' 0 20 = 0#20 then Except.ok .nop
      else if opField w = 1 ∧ rsvField w = 0#8 then Except.ok (.ldk (field0 w) (field1 w) (field2 w) (field3 w))
      else if opField w = 2 ∧ rsvField w = 0#8 ∧ w.extractLsb' 0 20 = 0#20 then Except.ok .det
      else if opField w = 3 ∧ rsvField w = 0#8 ∧ w.extractLsb' 0 20 = 0#20 then Except.ok .valk
      else if opField w = 4 ∧ rsvField w = 0#8 ∧ w.extractLsb' 5 15 = 0#15 then Except.ok (.modinv (field0 w))
      else if opField w = 5 ∧ rsvField w = 0#8 ∧ w.extractLsb' 10 10 = 0#10 then Except.ok (.gcd (field0 w) (field1 w))
      else if opField w = 6 ∧ rsvField w = 0#8 ∧ w.extractLsb' 0 20 = 0#20 then Except.ok .invk
      else if opField w = 7 ∧ rsvField w = 0#8 ∧ w.extractLsb' 10 10 = 0#10 then Except.ok (.mule (field0 w) (field1 w))
      else if opField w = 8 ∧ rsvField w = 0#8 ∧ w.extractLsb' 10 10 = 0#10 then Except.ok (.muld (field0 w) (field1 w))
      else if opField w = 9 ∧ rsvField w = 0#8 ∧ w.extractLsb' 5 15 = 0#15 then Except.ok (.rdr (field0 w))
      else if opField w = 10 ∧ rsvField w = 0#8 ∧ w.extractLsb' 0 20 = 0#20 then Except.ok .clre
      else Except.error (illegalReason w) := by
  rw [decode_eq]
  simp only [mask_all w 0 0x00000000 (by decide), mask_from20 w 1 0x10000000 (by decide),
    mask_all w 2 0x20000000 (by decide), mask_all w 3 0x30000000 (by decide), mask_from5 w 4 0x40000000 (by decide),
    mask_from10 w 5 0x50000000 (by decide), mask_all w 6 0x60000000 (by decide), mask_from10 w 7 0x70000000 (by decide),
    mask_from10 w 8 0x80000000 (by decide), mask_from5 w 9 0x90000000 (by decide), mask_all w 10 0xA0000000 (by decide)]

theorem operandBits_pack (op : BitVec 4) (f3 f2 f1 f0 : Field) :
    (packWord op f3 f2 f1 f0).extractLsb' 0 20 = f3 ++ f2 ++ f1 ++ f0 := by
  apply BitVec.eq_of_getLsbD_eq
  intro i hi
  unfold packWord
  interval_cases i <;> rw [BitVec.getLsbD_extractLsb'] <;> (repeat rw [BitVec.getLsbD_append]) <;> simp

/-- The operand bits above `f0`. -/
theorem bits5_pack (op : BitVec 4) (f3 f2 f1 f0 : Field) :
    (packWord op f3 f2 f1 f0).extractLsb' 5 15 = f3 ++ f2 ++ f1 := by
  apply BitVec.eq_of_getLsbD_eq
  intro i hi
  unfold packWord
  interval_cases i <;> rw [BitVec.getLsbD_extractLsb'] <;> (repeat rw [BitVec.getLsbD_append]) <;> simp

/-- The operand bits above `f1`. -/
theorem bits10_pack (op : BitVec 4) (f3 f2 f1 f0 : Field) :
    (packWord op f3 f2 f1 f0).extractLsb' 10 10 = f3 ++ f2 := by
  apply BitVec.eq_of_getLsbD_eq
  intro i hi
  unfold packWord
  interval_cases i <;> rw [BitVec.getLsbD_extractLsb'] <;> (repeat rw [BitVec.getLsbD_append]) <;> simp

/-- A field inside a run of bits that is 0 is 0. -/
theorem field_zero_of_bits (w : Word) (k n j : Nat) (h : w.extractLsb' k n = 0#n) (hk : k ≤ j) (hn : j + 5 ≤ k + n) :
    w.extractLsb' j 5 = 0#5 := by
  apply BitVec.eq_of_getLsbD_eq
  intro i hi
  have := bit_of_extract h (j - k + i) (by omega)
  rw [show k + (j - k + i) = j + i by omega] at this
  rw [BitVec.getLsbD_extractLsb', this]
  simp

theorem fields_zero (w : Word) (h : w.extractLsb' 0 20 = 0#20) :
    field0 w = 0 ∧ field1 w = 0 ∧ field2 w = 0 ∧ field3 w = 0 :=
  ⟨field_zero_of_bits w 0 20 0 h (by omega) (by omega), field_zero_of_bits w 0 20 5 h (by omega) (by omega),
    field_zero_of_bits w 0 20 10 h (by omega) (by omega), field_zero_of_bits w 0 20 15 h (by omega) (by omega)⟩

theorem fields_zero_from5 (w : Word) (h : w.extractLsb' 5 15 = 0#15) : field1 w = 0 ∧ field2 w = 0 ∧ field3 w = 0 :=
  ⟨field_zero_of_bits w 5 15 5 h (by omega) (by omega), field_zero_of_bits w 5 15 10 h (by omega) (by omega),
    field_zero_of_bits w 5 15 15 h (by omega) (by omega)⟩

theorem fields_zero_from10 (w : Word) (h : w.extractLsb' 10 10 = 0#10) : field2 w = 0 ∧ field3 w = 0 :=
  ⟨field_zero_of_bits w 10 10 10 h (by omega) (by omega), field_zero_of_bits w 10 10 15 h (by omega) (by omega)⟩

end Sys2Proof
end

