-- ==== Sys2Proof/Laws/Flags.lean ====
section
/-! SUPPORT. Every bit and field of STATUS after every writer of STATUS. -/

namespace Sys2Proof.Machine

/-- Two words agree on a field when they agree on its bits. -/
theorem extract_congr {w : Nat} (a b : BitVec w) (k n : Nat) (h : ∀ i < n, a.getLsbD (k + i) = b.getLsbD (k + i)) :
    a.extractLsb' k n = b.extractLsb' k n := by
  apply BitVec.eq_of_getLsbD_eq
  intro i hi
  rw [BitVec.getLsbD_extractLsb', BitVec.getLsbD_extractLsb', h i hi]

/-! `statusSetKv` -/

/-- Only bit 4 changes. -/
theorem setKv_bit (b : Bool) (st : BitVec 12) (j : Nat) (h : j ≠ 4) : (statusSetKv b st).getLsbD j = st.getLsbD j := by
  rcases Nat.lt_or_ge j 12 with h12 | h12
  · unfold statusSetKv
    interval_cases j <;> (repeat rw [BitVec.getLsbD_append]) <;> first | exact absurd rfl h | simp
  · rw [BitVec.getLsbD_of_ge _ _ h12, BitVec.getLsbD_of_ge _ _ h12]

@[simp] theorem statusKv_setKv (b : Bool) (st : BitVec 12) : statusKv (statusSetKv b st) = b := by
  unfold statusKv statusSetKv; repeat rw [BitVec.getLsbD_append]
  simp

/-- A field without bit 4 does not change. -/
theorem setKv_bits (b : Bool) (st : BitVec 12) (k n : Nat) (h : k + n ≤ 4 ∨ 5 ≤ k) :
    (statusSetKv b st).extractLsb' k n = st.extractLsb' k n :=
  extract_congr _ _ _ _ fun i hi => setKv_bit b st _ (by omega)

@[simp] theorem statusErr_setKv (b : Bool) (st : BitVec 12) : statusErr (statusSetKv b st) = statusErr st :=
  setKv_bits b st 0 4 (by omega)

@[simp] theorem statusIv_setKv (b : Bool) (st : BitVec 12) : statusIv (statusSetKv b st) = statusIv st :=
  setKv_bit b st 5 (by omega)

@[simp] theorem statusEop_setKv (b : Bool) (st : BitVec 12) : statusEop (statusSetKv b st) = statusEop st :=
  setKv_bits b st 8 4 (by omega)

/-! `statusSetIv` -/

/-- Only bit 5 changes. -/
theorem setIv_bit (b : Bool) (st : BitVec 12) (j : Nat) (h : j ≠ 5) : (statusSetIv b st).getLsbD j = st.getLsbD j := by
  rcases Nat.lt_or_ge j 12 with h12 | h12
  · unfold statusSetIv
    interval_cases j <;> (repeat rw [BitVec.getLsbD_append]) <;> first | exact absurd rfl h | simp
  · rw [BitVec.getLsbD_of_ge _ _ h12, BitVec.getLsbD_of_ge _ _ h12]

@[simp] theorem statusIv_setIv (b : Bool) (st : BitVec 12) : statusIv (statusSetIv b st) = b := by
  unfold statusIv statusSetIv; repeat rw [BitVec.getLsbD_append]
  simp

/-- A field without bit 5 does not change. -/
theorem setIv_bits (b : Bool) (st : BitVec 12) (k n : Nat) (h : k + n ≤ 5 ∨ 6 ≤ k) :
    (statusSetIv b st).extractLsb' k n = st.extractLsb' k n :=
  extract_congr _ _ _ _ fun i hi => setIv_bit b st _ (by omega)

@[simp] theorem statusErr_setIv (b : Bool) (st : BitVec 12) : statusErr (statusSetIv b st) = statusErr st :=
  setIv_bits b st 0 4 (by omega)

@[simp] theorem statusKv_setIv (b : Bool) (st : BitVec 12) : statusKv (statusSetIv b st) = statusKv st :=
  setIv_bit b st 4 (by omega)

@[simp] theorem statusEop_setIv (b : Bool) (st : BitVec 12) : statusEop (statusSetIv b st) = statusEop st :=
  setIv_bits b st 8 4 (by omega)

/-! `statusSetError` -/

/-- Bits 7:4 do not change. -/
theorem setError_bit (e o : BitVec 4) (st : BitVec 12) (j : Nat) (h : 4 ≤ j ∧ j < 8) :
    (statusSetError e o st).getLsbD j = st.getLsbD j := by
  obtain ⟨h4, h8⟩ := h
  unfold statusSetError
  interval_cases j <;> (repeat rw [BitVec.getLsbD_append]) <;> simp

/-- A field inside bits 7:4 does not change. -/
theorem setError_bits (e o : BitVec 4) (st : BitVec 12) (k n : Nat) (h : 4 ≤ k ∧ k + n ≤ 8) :
    (statusSetError e o st).extractLsb' k n = st.extractLsb' k n :=
  extract_congr _ _ _ _ fun i hi => setError_bit e o st _ (by omega)

@[simp] theorem statusErr_setError (e o : BitVec 4) (st : BitVec 12) : statusErr (statusSetError e o st) = e := by
  apply BitVec.eq_of_getLsbD_eq
  intro i hi
  unfold statusErr statusSetError
  interval_cases i <;> rw [BitVec.getLsbD_extractLsb'] <;> (repeat rw [BitVec.getLsbD_append]) <;> simp

@[simp] theorem statusEop_setError (e o : BitVec 4) (st : BitVec 12) : statusEop (statusSetError e o st) = o := by
  apply BitVec.eq_of_getLsbD_eq
  intro i hi
  unfold statusEop statusSetError
  interval_cases i <;> rw [BitVec.getLsbD_extractLsb'] <;> (repeat rw [BitVec.getLsbD_append]) <;> simp

@[simp] theorem statusKv_setError (e o : BitVec 4) (st : BitVec 12) : statusKv (statusSetError e o st) = statusKv st :=
  setError_bit e o st 4 (by omega)

@[simp] theorem statusIv_setError (e o : BitVec 4) (st : BitVec 12) : statusIv (statusSetError e o st) = statusIv st :=
  setError_bit e o st 5 (by omega)

end Sys2Proof.Machine
end

