-- ==== Sys2Proof/Laws/State.lean ====
section
/-! SUPPORT. One lemma per field and named update of State, each true by unfolding the update once. -/

namespace Sys2Proof.Machine

/-! `pushResponse` -/

@[simp] theorem pushResponse_k00 (w : Word) (s : State) : (pushResponse w s).k00 = s.k00 := rfl
@[simp] theorem pushResponse_k01 (w : Word) (s : State) : (pushResponse w s).k01 = s.k01 := rfl
@[simp] theorem pushResponse_k10 (w : Word) (s : State) : (pushResponse w s).k10 = s.k10 := rfl
@[simp] theorem pushResponse_k11 (w : Word) (s : State) : (pushResponse w s).k11 = s.k11 := rfl
@[simp] theorem pushResponse_i00 (w : Word) (s : State) : (pushResponse w s).i00 = s.i00 := rfl
@[simp] theorem pushResponse_i01 (w : Word) (s : State) : (pushResponse w s).i01 = s.i01 := rfl
@[simp] theorem pushResponse_i10 (w : Word) (s : State) : (pushResponse w s).i10 = s.i10 := rfl
@[simp] theorem pushResponse_i11 (w : Word) (s : State) : (pushResponse w s).i11 = s.i11 := rfl
@[simp] theorem pushResponse_det (w : Word) (s : State) : (pushResponse w s).det = s.det := rfl
@[simp] theorem pushResponse_detm (w : Word) (s : State) : (pushResponse w s).detm = s.detm := rfl
@[simp] theorem pushResponse_sinv (w : Word) (s : State) : (pushResponse w s).sinv = s.sinv := rfl
@[simp] theorem pushResponse_gcdr (w : Word) (s : State) : (pushResponse w s).gcdr = s.gcdr := rfl
@[simp] theorem pushResponse_out0 (w : Word) (s : State) : (pushResponse w s).out0 = s.out0 := rfl
@[simp] theorem pushResponse_out1 (w : Word) (s : State) : (pushResponse w s).out1 = s.out1 := rfl
@[simp] theorem pushResponse_status (w : Word) (s : State) : (pushResponse w s).status = s.status := rfl
@[simp] theorem pushResponse_earg (w : Word) (s : State) : (pushResponse w s).earg = s.earg := rfl
@[simp] theorem pushResponse_inputs (w : Word) (s : State) : (pushResponse w s).inputs = s.inputs := rfl
@[simp] theorem pushResponse_responses (w : Word) (s : State) : (pushResponse w s).responses = s.responses ++ [w] := rfl

/-! `recordError` -/

@[simp] theorem recordError_k00 (e : EngineError) (c : Word) (s : State) : (recordError e c s).k00 = s.k00 := by
  unfold recordError; split <;> rfl
@[simp] theorem recordError_k01 (e : EngineError) (c : Word) (s : State) : (recordError e c s).k01 = s.k01 := by
  unfold recordError; split <;> rfl
@[simp] theorem recordError_k10 (e : EngineError) (c : Word) (s : State) : (recordError e c s).k10 = s.k10 := by
  unfold recordError; split <;> rfl
@[simp] theorem recordError_k11 (e : EngineError) (c : Word) (s : State) : (recordError e c s).k11 = s.k11 := by
  unfold recordError; split <;> rfl
@[simp] theorem recordError_i00 (e : EngineError) (c : Word) (s : State) : (recordError e c s).i00 = s.i00 := by
  unfold recordError; split <;> rfl
@[simp] theorem recordError_i01 (e : EngineError) (c : Word) (s : State) : (recordError e c s).i01 = s.i01 := by
  unfold recordError; split <;> rfl
@[simp] theorem recordError_i10 (e : EngineError) (c : Word) (s : State) : (recordError e c s).i10 = s.i10 := by
  unfold recordError; split <;> rfl
@[simp] theorem recordError_i11 (e : EngineError) (c : Word) (s : State) : (recordError e c s).i11 = s.i11 := by
  unfold recordError; split <;> rfl
@[simp] theorem recordError_det (e : EngineError) (c : Word) (s : State) : (recordError e c s).det = s.det := by
  unfold recordError; split <;> rfl
@[simp] theorem recordError_detm (e : EngineError) (c : Word) (s : State) : (recordError e c s).detm = s.detm := by
  unfold recordError; split <;> rfl
@[simp] theorem recordError_sinv (e : EngineError) (c : Word) (s : State) : (recordError e c s).sinv = s.sinv := by
  unfold recordError; split <;> rfl
@[simp] theorem recordError_gcdr (e : EngineError) (c : Word) (s : State) : (recordError e c s).gcdr = s.gcdr := by
  unfold recordError; split <;> rfl
@[simp] theorem recordError_out0 (e : EngineError) (c : Word) (s : State) : (recordError e c s).out0 = s.out0 := by
  unfold recordError; split <;> rfl
@[simp] theorem recordError_out1 (e : EngineError) (c : Word) (s : State) : (recordError e c s).out1 = s.out1 := by
  unfold recordError; split <;> rfl
@[simp] theorem recordError_inputs (e : EngineError) (c : Word) (s : State) : (recordError e c s).inputs = s.inputs := by
  unfold recordError; split <;> rfl
@[simp] theorem recordError_responses (e : EngineError) (c : Word) (s : State) : (recordError e c s).responses = s.responses := by
  unfold recordError; split <;> rfl

/-! `clearError` -/

@[simp] theorem clearError_k00 (s : State) : (clearError s).k00 = s.k00 := rfl
@[simp] theorem clearError_k01 (s : State) : (clearError s).k01 = s.k01 := rfl
@[simp] theorem clearError_k10 (s : State) : (clearError s).k10 = s.k10 := rfl
@[simp] theorem clearError_k11 (s : State) : (clearError s).k11 = s.k11 := rfl
@[simp] theorem clearError_i00 (s : State) : (clearError s).i00 = s.i00 := rfl
@[simp] theorem clearError_i01 (s : State) : (clearError s).i01 = s.i01 := rfl
@[simp] theorem clearError_i10 (s : State) : (clearError s).i10 = s.i10 := rfl
@[simp] theorem clearError_i11 (s : State) : (clearError s).i11 = s.i11 := rfl
@[simp] theorem clearError_det (s : State) : (clearError s).det = s.det := rfl
@[simp] theorem clearError_detm (s : State) : (clearError s).detm = s.detm := rfl
@[simp] theorem clearError_sinv (s : State) : (clearError s).sinv = s.sinv := rfl
@[simp] theorem clearError_gcdr (s : State) : (clearError s).gcdr = s.gcdr := rfl
@[simp] theorem clearError_out0 (s : State) : (clearError s).out0 = s.out0 := rfl
@[simp] theorem clearError_out1 (s : State) : (clearError s).out1 = s.out1 := rfl
@[simp] theorem clearError_status (s : State) : (clearError s).status = statusSetError 0 0 s.status := rfl
@[simp] theorem clearError_earg (s : State) : (clearError s).earg = 0 := rfl
@[simp] theorem clearError_inputs (s : State) : (clearError s).inputs = s.inputs := rfl
@[simp] theorem clearError_responses (s : State) : (clearError s).responses = s.responses := rfl

/-! `takeReset` -/

@[simp] theorem takeReset_k00 (s : State) : (takeReset s).k00 = 0 := rfl
@[simp] theorem takeReset_k01 (s : State) : (takeReset s).k01 = 0 := rfl
@[simp] theorem takeReset_k10 (s : State) : (takeReset s).k10 = 0 := rfl
@[simp] theorem takeReset_k11 (s : State) : (takeReset s).k11 = 0 := rfl
@[simp] theorem takeReset_i00 (s : State) : (takeReset s).i00 = 0 := rfl
@[simp] theorem takeReset_i01 (s : State) : (takeReset s).i01 = 0 := rfl
@[simp] theorem takeReset_i10 (s : State) : (takeReset s).i10 = 0 := rfl
@[simp] theorem takeReset_i11 (s : State) : (takeReset s).i11 = 0 := rfl
@[simp] theorem takeReset_det (s : State) : (takeReset s).det = 0 := rfl
@[simp] theorem takeReset_detm (s : State) : (takeReset s).detm = 0 := rfl
@[simp] theorem takeReset_sinv (s : State) : (takeReset s).sinv = 0 := rfl
@[simp] theorem takeReset_gcdr (s : State) : (takeReset s).gcdr = 0 := rfl
@[simp] theorem takeReset_out0 (s : State) : (takeReset s).out0 = 0 := rfl
@[simp] theorem takeReset_out1 (s : State) : (takeReset s).out1 = 0 := rfl
@[simp] theorem takeReset_status (s : State) : (takeReset s).status = 0 := rfl
@[simp] theorem takeReset_earg (s : State) : (takeReset s).earg = 0 := rfl
@[simp] theorem takeReset_inputs (s : State) : (takeReset s).inputs = s.inputs := rfl
@[simp] theorem takeReset_responses (s : State) : (takeReset s).responses = s.responses := rfl

/-! `withInputs` -/

@[simp] theorem withInputs_k00 (l : List HostInput) (s : State) : (withInputs l s).k00 = s.k00 := rfl
@[simp] theorem withInputs_k01 (l : List HostInput) (s : State) : (withInputs l s).k01 = s.k01 := rfl
@[simp] theorem withInputs_k10 (l : List HostInput) (s : State) : (withInputs l s).k10 = s.k10 := rfl
@[simp] theorem withInputs_k11 (l : List HostInput) (s : State) : (withInputs l s).k11 = s.k11 := rfl
@[simp] theorem withInputs_i00 (l : List HostInput) (s : State) : (withInputs l s).i00 = s.i00 := rfl
@[simp] theorem withInputs_i01 (l : List HostInput) (s : State) : (withInputs l s).i01 = s.i01 := rfl
@[simp] theorem withInputs_i10 (l : List HostInput) (s : State) : (withInputs l s).i10 = s.i10 := rfl
@[simp] theorem withInputs_i11 (l : List HostInput) (s : State) : (withInputs l s).i11 = s.i11 := rfl
@[simp] theorem withInputs_det (l : List HostInput) (s : State) : (withInputs l s).det = s.det := rfl
@[simp] theorem withInputs_detm (l : List HostInput) (s : State) : (withInputs l s).detm = s.detm := rfl
@[simp] theorem withInputs_sinv (l : List HostInput) (s : State) : (withInputs l s).sinv = s.sinv := rfl
@[simp] theorem withInputs_gcdr (l : List HostInput) (s : State) : (withInputs l s).gcdr = s.gcdr := rfl
@[simp] theorem withInputs_out0 (l : List HostInput) (s : State) : (withInputs l s).out0 = s.out0 := rfl
@[simp] theorem withInputs_out1 (l : List HostInput) (s : State) : (withInputs l s).out1 = s.out1 := rfl
@[simp] theorem withInputs_status (l : List HostInput) (s : State) : (withInputs l s).status = s.status := rfl
@[simp] theorem withInputs_earg (l : List HostInput) (s : State) : (withInputs l s).earg = s.earg := rfl
@[simp] theorem withInputs_inputs (l : List HostInput) (s : State) : (withInputs l s).inputs = l := rfl
@[simp] theorem withInputs_responses (l : List HostInput) (s : State) : (withInputs l s).responses = s.responses := rfl

end Sys2Proof.Machine
end

