-- ==== Sys2Proof/Laws/Ops.lean ====
section
/-! SUPPORT. Everything the shared operations can do: the response word, `respond`, `raise`, the gate, and the return from an
error. The meanings' lemmas cite these and unfold none of them. -/

namespace Sys2Proof.Machine

/-! The response word (R53). -/

theorem responseWord_err (st : BitVec 12) (d : Data) : (responseWord st d).extractLsb' 28 4 = statusErr st := by
  apply BitVec.eq_of_getLsbD_eq
  intro i hi
  unfold responseWord
  interval_cases i <;> rw [BitVec.getLsbD_extractLsb'] <;> (repeat rw [BitVec.getLsbD_append]) <;> simp

theorem responseWord_kv (st : BitVec 12) (d : Data) : (responseWord st d).getLsbD 27 = statusKv st := by
  unfold responseWord; repeat rw [BitVec.getLsbD_append]
  simp

theorem responseWord_iv (st : BitVec 12) (d : Data) : (responseWord st d).getLsbD 26 = statusIv st := by
  unfold responseWord; repeat rw [BitVec.getLsbD_append]
  simp

theorem responseWord_zeros (st : BitVec 12) (d : Data) : (responseWord st d).extractLsb' 20 6 = 0#6 := by
  apply BitVec.eq_of_getLsbD_eq
  intro i hi
  unfold responseWord
  interval_cases i <;> rw [BitVec.getLsbD_extractLsb'] <;> (repeat rw [BitVec.getLsbD_append]) <;> simp

theorem responseWord_data (st : BitVec 12) (d : Data) : (responseWord st d).extractLsb' 0 20 = d := by
  apply BitVec.eq_of_getLsbD_eq
  intro i hi
  unfold responseWord
  rw [BitVec.getLsbD_extractLsb', BitVec.getLsbD_append]
  simp [hi]

/-! The two spellings of the status fields. -/

theorem ready_iff (s : State) : Ready s ↔ statusErr s.status = 0#4 := Iff.rfl

theorem keyValidated_iff (s : State) : KeyValidated s ↔ statusKv s.status = true := Iff.rfl

theorem inverseValid_iff (s : State) : InverseValid s ↔ statusIv s.status = true := Iff.rfl

/-! `respond` and the gate. -/

/-- `respond d` ends a command whose writes made `s'` from `s`, with exactly one response word. -/
theorem respond_spec (d : Data) (s s' : State) (h : s'.responses = s.responses) :
    ∃ t, respond d s' = .next t ∧ t = { s' with responses := t.responses } ∧ Responds s t d := by
  refine ⟨_, rfl, rfl, responseWord s'.status d, ?_, ?_, ?_, ?_, ?_, ?_⟩
  · simp [h]
  · exact responseWord_err _ _
  · exact responseWord_kv _ _
  · exact responseWord_iv _ _
  · exact responseWord_zeros _ _
  · exact responseWord_data _ _

theorem gated_ready (s : State) (b : Host.Outcome State Fault Refusal) (h : Ready s) : gated s b = b := if_pos h

/-- R133: with an error pending the command is refused. -/
theorem gated_pending (s : State) (b : Host.Outcome State Fault Refusal) (h : ¬ Ready s) :
    ∃ t, gated s b = .next t ∧ RefusedByGate s t := by
  obtain ⟨t, ht, hs, hr⟩ := respond_spec 0 s s rfl
  exact ⟨t, by rw [← ht]; exact if_neg h, hs, hr⟩

/-! `raise` and `clearError`. -/

/-- R132 with no error pending. -/
theorem raise_ready (e : EngineError) (cmd : Word) (s : State) (h : Ready s) :
    ∃ t, raise e cmd s = .next t ∧ RaisesError (errorCode e) cmd s t := by
  obtain ⟨t, ht, hs, hr⟩ := respond_spec 0 s (recordError e cmd s) (recordError_responses e cmd s)
  have hrec : recordError e cmd s =
      { s with status := statusSetError (errorCode e) (opField cmd) s.status, earg := operandBits cmd } := if_pos h
  rw [hrec] at hs
  refine ⟨t, ht, ?_, ?_, ?_, ?_, ?_, hr⟩
  · rw [hs]
  · rw [hs]; exact statusErr_setError _ _ _
  · rw [hs]; exact setError_bits _ _ _ 4 4 (by omega)
  · rw [hs]; exact statusEop_setError _ _ _
  · rw [hs]; rfl

/-- R132 with an error pending: nothing is recorded. -/
theorem raise_pending (e : EngineError) (cmd : Word) (s : State) (h : ¬ Ready s) :
    ∃ t, raise e cmd s = .next t ∧ RefusedByGate s t := by
  obtain ⟨t, ht, hs, hr⟩ := respond_spec 0 s s rfl
  have hrec : recordError e cmd s = s := if_neg h
  exact ⟨t, by rw [raise, hrec, ht], hs, hr⟩

theorem errorCode_ne_zero (e : EngineError) : errorCode e ≠ 0#4 := by cases e <;> decide

/-- A raised error is pending afterwards. -/
theorem not_ready_of_raises {e : EngineError} {cmd : Word} {s t : State} (h : RaisesError (errorCode e) cmd s t) : ¬ Ready t :=
  fun hr => errorCode_ne_zero e (h.2.1.symm.trans hr)

end Sys2Proof.Machine
end

