-- ==== Sys2Proof/Laws/Command.lean ====
section
/-! SUPPORT. Once and for all what a command can do: `Effect` lists every way a command ends, with its guard, and `exec_effect` says that
`exec` always answers a next state of one of these forms. Whole-machine statements go by cases on it. -/

namespace Sys2Proof.Machine

/-- End a command whose writes made `s'`, with `DATA = d`. -/
def answerWith (d : Data) (s' : State) : State := pushResponse (responseWord s'.status d) s'

@[simp] theorem answerWith_status (d : Data) (s' : State) : (answerWith d s').status = s'.status := rfl

@[simp] theorem answerWith_earg (d : Data) (s' : State) : (answerWith d s').earg = s'.earg := rfl

@[simp] theorem answerWith_inputs (d : Data) (s' : State) : (answerWith d s').inputs = s'.inputs := rfl

theorem ready_answerWith (d : Data) (s' : State) : Ready (answerWith d s') ↔ Ready s' := by
  rw [ready_iff, ready_iff, answerWith_status]

/-- The invariant says nothing of the responses. -/
theorem engineInv_answerWith (d : Data) (s' : State) : EngineInv (answerWith d s') ↔ EngineInv s' := by
  unfold answerWith
  generalize responseWord s'.status d = w
  exact Iff.rfl

theorem onlyAnswered_answerWith (d : Data) (s : State) : OnlyAnswered s (answerWith d s) := rfl

/-- The answer of a command that wrote no response before it. -/
theorem responds_answerWith (d : Data) (s s' : State) (h : s'.responses = s.responses) : Responds s (answerWith d s') d := by
  obtain ⟨t, ht, -, hr⟩ := respond_spec d s s' h
  cases ht
  exact hr

/-- The error form of `Effect` is the shape of R132. -/
theorem raisesError_answerWith (e : EngineError) (cmd : Word) (s : State) (h : Ready s) :
    RaisesError (errorCode e) cmd s (answerWith 0 (recordError e cmd s)) := by
  obtain ⟨t, ht, hr⟩ := raise_ready e cmd s h
  cases ht
  exact hr

/-- Which errors a command can raise in which states and on which operands (R131). -/
def CanRaise (e : EngineError) (i : Instr) (s : State) : Prop :=
  match i with
  | .nop => False
  | .ldk a b c d => e = .invalidValue ∧ ¬ (a.toNat ≤ 26 ∧ b.toNat ≤ 26 ∧ c.toNat ≤ 26 ∧ d.toNat ≤ 26)
  | .det => False
  | .valk => False
  | .modinv a => e = .noModularInverse ∧ modinv27 a.toNat = none
  | .gcd _ _ => False
  | .invk => e = .noModularInverse ∧ modinv27 (mod27 (keyDeterminant s)) = none
  | .mule v0 v1 =>
    (e = .keyNotValidated ∧ ¬ KeyValidated s) ∨
      (e = .invalidValue ∧ KeyValidated s ∧ ¬ (v0.toNat ≤ 26 ∧ v1.toNat ≤ 26))
  | .muld v0 v1 =>
    (e = .inverseNotReady ∧ ¬ InverseValid s) ∨
      (e = .invalidValue ∧ InverseValid s ∧ ¬ (v0.toNat ≤ 26 ∧ v1.toNat ≤ 26))
  | .rdr r => e = .illegalCommand ∧ 17 ≤ r.toNat
  | .clre => False

/-- Every way the command `i` can end in `s`. -/
inductive Effect (i : Instr) (s : State) : State → Prop
  /-- Refused by the gate (R133), or a reserved index read while an error is pending. -/
  | refused (hp : ¬ Ready s) (hi : i ≠ .nop ∧ i ≠ .clre) : Effect i s (answerWith 0 s)
  | raised (e : EngineError) (hr : Ready s) (hc : CanRaise e i s) : Effect i s (answerWith 0 (recordError e (encode i) s))
  | nop (hi : i = .nop) : Effect i s (answerWith 0 s)
  | read (r : Field) (reg : Reg) (hi : i = .rdr r) (hr : regOfIndex r = some reg) : Effect i s (answerWith (readReg reg s) s)
  | cleared (hi : i = .clre) : Effect i s (answerWith 0 (clearError s))
  | loaded (a b c d : Field) (hi : i = .ldk a b c d) (hr : Ready s)
      (hv : a.toNat ≤ 26 ∧ b.toNat ≤ 26 ∧ c.toNat ≤ 26 ∧ d.toNat ≤ 26) :
      Effect i s (answerWith 0
        { s with
          k00 := a, k01 := b, k10 := c, k11 := d, i00 := 0, i01 := 0, i10 := 0, i11 := 0
          status := statusSetIv false (statusSetKv false s.status) })
  | det (hi : i = .det) (hr : Ready s) :
      Effect i s (answerWith (sext20 (toDet (keyDeterminant s))) { s with det := toDet (keyDeterminant s) })
  | valk (hi : i = .valk) (hr : Ready s) :
      Effect i s (answerWith (if euclid (mod27 (keyDeterminant s)) 27 = 1 then 1 else 0)
        { s with
          det := toDet (keyDeterminant s), detm := toField (mod27 (keyDeterminant s))
          gcdr := toField (euclid (mod27 (keyDeterminant s)) 27)
          status := statusSetKv (decide (euclid (mod27 (keyDeterminant s)) 27 = 1)) s.status })
  | modinv (a : Field) (x : Nat) (hi : i = .modinv a) (hr : Ready s) (hx : modinv27 a.toNat = some x) :
      Effect i s (answerWith (zext20 (toField x)) { s with sinv := toField x })
  | gcd (a b : Field) (hi : i = .gcd a b) (hr : Ready s) :
      Effect i s (answerWith (zext20 (toField (euclid a.toNat b.toNat))) { s with gcdr := toField (euclid a.toNat b.toNat) })
  | invk (x : Nat) (hi : i = .invk) (hr : Ready s) (hx : modinv27 (mod27 (keyDeterminant s)) = some x) :
      Effect i s (answerWith
        (toField (mod27 ((s.k00.toNat : Int) * x)) ++ toField (mod27 (-(s.k10.toNat : Int) * x)) ++
          toField (mod27 (-(s.k01.toNat : Int) * x)) ++ toField (mod27 ((s.k11.toNat : Int) * x)))
        { s with
          det := toDet (keyDeterminant s), detm := toField (mod27 (keyDeterminant s)), sinv := toField x
          i00 := toField (mod27 ((s.k11.toNat : Int) * x)), i01 := toField (mod27 (-(s.k01.toNat : Int) * x))
          i10 := toField (mod27 (-(s.k10.toNat : Int) * x)), i11 := toField (mod27 ((s.k00.toNat : Int) * x))
          status := statusSetIv true s.status })
  | mule (v0 v1 : Field) (hi : i = .mule v0 v1) (hr : Ready s) (hf : KeyValidated s) (hv : v0.toNat ≤ 26 ∧ v1.toNat ≤ 26) :
      Effect i s (answerWith
        (0#10 ++ toField (rowProduct s.k10 s.k11 v0 v1) ++ toField (rowProduct s.k00 s.k01 v0 v1))
        { s with out0 := toField (rowProduct s.k00 s.k01 v0 v1), out1 := toField (rowProduct s.k10 s.k11 v0 v1) })
  | muld (v0 v1 : Field) (hi : i = .muld v0 v1) (hr : Ready s) (hf : InverseValid s) (hv : v0.toNat ≤ 26 ∧ v1.toNat ≤ 26) :
      Effect i s (answerWith
        (0#10 ++ toField (rowProduct s.i10 s.i11 v0 v1) ++ toField (rowProduct s.i00 s.i01 v0 v1))
        { s with out0 := toField (rowProduct s.i00 s.i01 v0 v1), out1 := toField (rowProduct s.i10 s.i11 v0 v1) })

theorem isValue_iff (v : Field) : isValue v = true ↔ v.toNat ≤ 26 := by simp [isValue]

theorem regOfIndex_eq_none (r : Field) : regOfIndex r = none ↔ 17 ≤ r.toNat := by
  revert r; decide

/-- A gated command: refused while an error is pending, else its body. -/
theorem gated_effect (i : Instr) (s : State) (body : Host.Outcome State Fault Refusal) (hi : i ≠ .nop ∧ i ≠ .clre)
    (h : Ready s → ∃ t, body = .next t ∧ Effect i s t) : ∃ t, gated s body = .next t ∧ Effect i s t := by
  by_cases hr : Ready s
  · rw [gated_ready s body hr]; exact h hr
  · exact ⟨_, if_neg hr, .refused hr hi⟩

/-- `exec` answers a next state, and it is one of those `Effect` lists. -/
theorem exec_effect (i : Instr) (s : State) : ∃ t, exec i s = .next t ∧ Effect i s t := by
  cases i with
  | nop => exact ⟨_, rfl, .nop rfl⟩
  | ldk a b c d =>
    refine gated_effect _ s _ ⟨nofun, nofun⟩ fun hr => ?_
    split
    · rename_i hv
      simp only [Bool.and_eq_true, isValue_iff] at hv
      exact ⟨_, rfl, .loaded a b c d rfl hr ⟨hv.1.1.1, hv.1.1.2, hv.1.2, hv.2⟩⟩
    · rename_i hv
      simp only [Bool.and_eq_true, isValue_iff, and_assoc] at hv
      exact ⟨_, rfl, .raised .invalidValue hr ⟨rfl, hv⟩⟩
  | det => exact gated_effect _ s _ ⟨nofun, nofun⟩ fun hr => ⟨_, rfl, .det rfl hr⟩
  | valk => exact gated_effect _ s _ ⟨nofun, nofun⟩ fun hr => ⟨_, rfl, .valk rfl hr⟩
  | modinv a =>
    refine gated_effect _ s _ ⟨nofun, nofun⟩ fun hr => ?_
    split
    · exact ⟨_, rfl, .raised .noModularInverse hr ⟨rfl, ‹_›⟩⟩
    · exact ⟨_, rfl, .modinv a _ rfl hr ‹_›⟩
  | gcd a b => exact gated_effect _ s _ ⟨nofun, nofun⟩ fun hr => ⟨_, rfl, .gcd a b rfl hr⟩
  | invk =>
    refine gated_effect _ s _ ⟨nofun, nofun⟩ fun hr => ?_
    dsimp only
    split
    · exact ⟨_, rfl, .raised .noModularInverse hr ⟨rfl, ‹_›⟩⟩
    · exact ⟨_, rfl, .invk _ rfl hr ‹_›⟩
  | mule v0 v1 =>
    refine gated_effect _ s _ ⟨nofun, nofun⟩ fun hr => ?_
    split
    · split
      · rename_i hf hv
        simp only [Bool.and_eq_true, isValue_iff] at hv
        exact ⟨_, rfl, .mule v0 v1 rfl hr hf hv⟩
      · rename_i hf hv
        simp only [Bool.and_eq_true, isValue_iff] at hv
        exact ⟨_, rfl, .raised .invalidValue hr (.inr ⟨rfl, hf, hv⟩)⟩
    · exact ⟨_, rfl, .raised .keyNotValidated hr (.inl ⟨rfl, ‹_›⟩)⟩
  | muld v0 v1 =>
    refine gated_effect _ s _ ⟨nofun, nofun⟩ fun hr => ?_
    split
    · split
      · rename_i hf hv
        simp only [Bool.and_eq_true, isValue_iff] at hv
        exact ⟨_, rfl, .muld v0 v1 rfl hr hf hv⟩
      · rename_i hf hv
        simp only [Bool.and_eq_true, isValue_iff] at hv
        exact ⟨_, rfl, .raised .invalidValue hr (.inr ⟨rfl, hf, hv⟩)⟩
    · exact ⟨_, rfl, .raised .inverseNotReady hr (.inl ⟨rfl, ‹_›⟩)⟩
  | rdr r =>
    show ∃ t, execRdr r s = .next t ∧ _
    unfold execRdr
    split
    · exact ⟨_, rfl, .read r _ rfl ‹_›⟩
    · rename_i hn
      by_cases hr : Ready s
      · exact ⟨_, rfl, .raised .illegalCommand hr ⟨rfl, (regOfIndex_eq_none r).1 hn⟩⟩
      · have hrec : recordError .illegalCommand (encode (.rdr r)) s = s := if_neg hr
        refine ⟨_, ?_, .refused hr ⟨nofun, nofun⟩⟩
        rw [raise, hrec]; rfl
  | clre => exact ⟨_, rfl, .cleared rfl⟩

/-- The inversion: a next state of `exec` is one of those `Effect` lists. -/
theorem effect_of_exec {i : Instr} {s t : State} (h : exec i s = .next t) : Effect i s t := by
  obtain ⟨u, hu, he⟩ := exec_effect i s
  rw [h] at hu
  cases hu
  exact he

end Sys2Proof.Machine
end

