-- ==== Sys2Proof/Laws/PerInstr.lean ====
section
/-! SUPPORT. Statements about every command as syntax, one lemma per constructor. -/

namespace Sys2Proof.Laws.CommandWord

/-- R50, R52: the word of a command has the command's opcode in bits 31:28 and zeros in the reserved bits 27:20. -/
def Statement (i : Instr) : Prop := opField (encode i) = opcode i ∧ rsvField (encode i) = 0#8

theorem nop : Statement .nop := ⟨opField_pack .., rsvField_pack ..⟩

theorem ldk (k00 k01 k10 k11 : Field) : Statement (.ldk k00 k01 k10 k11) := ⟨opField_pack .., rsvField_pack ..⟩

theorem det : Statement .det := ⟨opField_pack .., rsvField_pack ..⟩

theorem valk : Statement .valk := ⟨opField_pack .., rsvField_pack ..⟩

theorem modinv (a : Field) : Statement (.modinv a) := ⟨opField_pack .., rsvField_pack ..⟩

theorem gcd (a b : Field) : Statement (.gcd a b) := ⟨opField_pack .., rsvField_pack ..⟩

theorem invk : Statement .invk := ⟨opField_pack .., rsvField_pack ..⟩

theorem mule (v0 v1 : Field) : Statement (.mule v0 v1) := ⟨opField_pack .., rsvField_pack ..⟩

theorem muld (v0 v1 : Field) : Statement (.muld v0 v1) := ⟨opField_pack .., rsvField_pack ..⟩

theorem rdr (r : Field) : Statement (.rdr r) := ⟨opField_pack .., rsvField_pack ..⟩

theorem clre : Statement .clre := ⟨opField_pack .., rsvField_pack ..⟩

end Sys2Proof.Laws.CommandWord
end

