-- ==== Sys2Proof/Tests/Slice0.lean ====
section
/-! SUPPORT. Small tests with expected values from spec/95_test_vectors.md (the section stands at each) or written out from
spec/30_encoding.md, and for every obligation with hypotheses concrete states and operands that meet them. -/

namespace Sys2Proof.Tests

open Sys2Proof Sys2Proof.Machine

/-! Helpers. -/

/-- The response to one word. -/
def response (w : Word) (s : State) : Word := (answer w s).1

/-- The state after one word. -/
def after (w : Word) (s : State) : State := (answer w s).2

/-- Reset, then a key in the key registers and this status. -/
def keyed (a b c d : Field) (st : BitVec 12) : State :=
  { State.reset with k00 := a, k01 := b, k10 := c, k11 := d, status := st }

/-- Key K1 of section 2.2, loaded. -/
def k1 : State := keyed 5 8 17 3 0

/-- Key K1 validated and inverted: the state after `LDK 5, 8, 17, 3 ; VALK ; INVK` (P5). -/
def k1Ready : State :=
  { k1 with i00 := 6, i01 := 11, i10 := 20, i11 := 10, det := 0xFF87, detm := 14, sinv := 2, gcdr := 1, status := 0x030 }

/-- The state after `MODINV 9` from reset (2.7). -/
def pending : State := { State.reset with status := 0x403, earg := 9 }

/-! Decoding: words written out bit by bit from the patterns of R52. -/

theorem test_decode_nop : decode 0b0000_00000000_00000_00000_00000_00000 = .ok .nop := by decide
theorem test_decode_ldk : decode 0b0001_00000000_00011_10001_01000_00101 = .ok (.ldk 5 8 17 3) := by decide
theorem test_decode_det : decode 0b0010_00000000_00000_00000_00000_00000 = .ok .det := by decide
theorem test_decode_valk : decode 0b0011_00000000_00000_00000_00000_00000 = .ok .valk := by decide
theorem test_decode_modinv : decode 0b0100_00000000_00000_00000_00000_11111 = .ok (.modinv 31) := by decide
theorem test_decode_gcd : decode 0b0101_00000000_00000_00000_11011_01110 = .ok (.gcd 14 27) := by decide
theorem test_decode_invk : decode 0b0110_00000000_00000_00000_00000_00000 = .ok .invk := by decide
theorem test_decode_mule : decode 0b0111_00000000_00000_00000_00101_01000 = .ok (.mule 8 5) := by decide
theorem test_decode_muld : decode 0b1000_00000000_00000_00000_10000_11010 = .ok (.muld 26 16) := by decide
theorem test_decode_rdr : decode 0b1001_00000000_00000_00000_00000_01110 = .ok (.rdr 14) := by decide
theorem test_decode_clre : decode 0b1010_00000000_00000_00000_00000_00000 = .ok .clre := by decide

/-- One illegal word for each reason of R55 (2.1). -/
theorem test_decode_illegal :
    decode 0xB0000000 = .error .reservedOpcode ∧ decode 0x00100000 = .error .reservedBits ∧
    decode 0x08000000 = .error .reservedBits ∧ decode 0x00000001 = .error .unusedField ∧
    decode 0x40000020 = .error .unusedField ∧ decode 0x80080000 = .error .unusedField ∧
    decodeBytes [0x05, 0xC5, 0x01] = .error .tooFewBytes := by decide

theorem test_decodeTableWord : decodeTableWord 32 0x1001C505 = some (.ldk 5 8 17 3) ∧ decodeTableWord 32 0xB0000000 = none := by
  decide

/-! Well-formedness: a term that each check refuses, beside the largest operand it accepts (R51). -/

theorem test_wellFormed_ldk :
    wellFormed (.ldk 27 0 0 0) = false ∧ wellFormed (.ldk 0 27 0 0) = false ∧ wellFormed (.ldk 0 0 27 0) = false ∧
    wellFormed (.ldk 0 0 0 27) = false ∧ wellFormed (.ldk 26 26 26 26) = true := by decide
theorem test_wellFormed_mule :
    wellFormed (.mule 27 0) = false ∧ wellFormed (.mule 0 27) = false ∧ wellFormed (.mule 26 26) = true := by decide
theorem test_wellFormed_muld :
    wellFormed (.muld 27 0) = false ∧ wellFormed (.muld 0 31) = false ∧ wellFormed (.muld 26 26) = true := by decide
theorem test_wellFormed_rdr : wellFormed (.rdr 17) = false ∧ wellFormed (.rdr 16) = true := by decide

/-! One command each. -/

/-- 2.7, P3 line 8: `NOP` shows the pending code. -/
theorem test_nop_pending : response 0x00000000 pending = 0x30000000 := by decide
/-- 2.1. -/
theorem test_ldk_loads :
    (after 0x1001C505 k1Ready).k10 = 17 ∧ (after 0x1001C505 k1Ready).i00 = 0 ∧ response 0x1001C505 k1Ready = 0 := by decide
/-- 2.2: `LDK 27, 0, 0, 0`. -/
theorem test_ldk_invalid : response 0x1000001B State.reset = 0x20000000 ∧ (after 0x1000001B State.reset).status = 0x102 ∧
    (after 0x1000001B State.reset).earg = 0x0001B := by decide
/-- 2.2, K1 and K7. -/
theorem test_det : response 0x20000000 k1 = 0x000FFF87 ∧ (after 0x20000000 (keyed 0 26 26 0 0)).det = 0xFD5C := by decide
/-- P1 line 1. -/
theorem test_valk_valid : response 0x30000000 k1 = 0x08000001 ∧ (after 0x30000000 k1).detm = 14 := by decide
/-- 2.2, K2: the key of S1. -/
theorem test_valk_invalid : response 0x30000000 (keyed 3 3 2 5 0x010) = 0 ∧ (after 0x30000000 (keyed 3 3 2 5 0)).gcdr = 9 := by
  decide
/-- 2.3. -/
theorem test_modinv : response 0x4000000E State.reset = 0x00000002 ∧ (after 0x4000001F State.reset).sinv = 7 := by decide
/-- 2.7: `MODINV 9` from reset. -/
theorem test_modinv_none : response 0x40000009 State.reset = 0x30000000 ∧
    nextState? (exec (.modinv 9) State.reset) = some { pending with responses := [0x30000000] } := by decide
/-- 2.4. -/
theorem test_gcd : response 0x50000192 State.reset = 6 ∧ response 0x500003FF State.reset = 31 := by decide
/-- 2.4, and refused while an error is pending (2.7). -/
theorem test_gcd_refused : response 0x5000036E pending = 0x30000000 ∧ (after 0x5000036E pending).gcdr = 0 := by decide
/-- 2.2, K8, and P5 line 9 for `KV` = 0. -/
theorem test_invk : response 0x60000000 (keyed 1 2 3 4 0) = 0x0406BC39 ∧ (after 0x60000000 (keyed 1 2 3 4 0)).sinv = 13 := by
  decide
/-- 2.2, K2. -/
theorem test_invk_none : response 0x60000000 (keyed 3 3 2 5 0) = 0x30000000 ∧ (after 0x60000000 (keyed 3 3 2 5 0)).det = 0 := by
  decide
/-- P1 line 2; 2.5, K15 with the largest sum. -/
theorem test_mule : response 0x700000A8 (keyed 5 8 17 3 0x010) = 0x0800021A ∧
    (after 0x7000035A (keyed 26 26 26 25 0x010)).out1 = 3 := by decide
/-- 2.5: the flag is checked before the operand. -/
theorem test_mule_flag_first : response 0x7000001B k1 = 0x60000000 ∧ response 0x7000007B k1Ready = 0x2C000000 := by decide
/-- P2 line 1. -/
theorem test_muld : response 0x8000021A k1Ready = 0x0C0000A8 ∧ (after 0x8000021A k1Ready).out0 = 8 := by decide
/-- P5 lines 7 and 15. -/
theorem test_muld_errors : response 0x80000225 k1 = 0x70000000 ∧ response 0x800003E0 k1Ready = 0x2C000000 := by decide
/-- P2 lines 6 and 7. -/
theorem test_rdr : response 0x90000008 k1Ready = 0x0C0FFF87 ∧ response 0x9000000E k1Ready = 0x0C000030 := by decide
/-- 2.7: a reserved index while an error is pending; 2.1: from reset. -/
theorem test_rdr_reserved : response 0x90000011 pending = 0x30000000 ∧ (after 0x90000011 pending).status = 0x403 ∧
    response 0x9000001F State.reset = 0x50000000 := by decide
/-- P5 line 11. -/
theorem test_clre : response 0xA0000000 (keyed 5 8 17 3 0x726) = 0x04000000 ∧ (after 0xA0000000 pending).earg = 0 := by decide
/-- 2.1 and 2.7: an illegal word, and an illegal word while an error is pending. -/
theorem test_illegal : response 0x00100000 State.reset = 0x50000000 ∧ (after 0x00100000 State.reset).status = 0x005 ∧
    response 0xB0000000 pending = 0x30000000 := by decide

/-! Steps, ports and the host. -/

theorem test_step_fetches : nextState? (step (k1.withFetchWord 32 0x20000000)) = some (after 0x20000000 k1) := by decide
theorem test_step_resets : nextState? (step { k1Ready with inputs := [.reset, .command 0] }) =
    some { State.reset with inputs := [.command 0] } := by decide
/-- R32: no command is accepted at an edge with `rst`. -/
theorem test_port_reset :
    portAccepts { rst := true, cmdValid := true, cmdData := 0, rspReady := true }
      { engine := State.reset, phase := .idle, drawn := 0 } = none := by decide
/-- 2.6, T2 and T5. -/
theorem test_hostEncrypt : (hostEncrypt ['a'] (keyed 5 8 17 3 0x010)).1 = .ok ['e', 'q'] ∧
    (hostEncrypt ['a', 'z'] (keyed 1 2 3 4 0x010)).1 = .ok ['z', 'z'] := by decide
/-- 2.6, T2 and T7. -/
theorem test_hostDecrypt : (hostDecrypt ['e', 'q'] k1).1 = .ok ['a', ' '] ∧
    (hostDecrypt ['z', 'p', 'u'] k1).1 = .error .invalidInputLength := by decide
/-- U7 and T3: a symbol outside the alphabet fails before any command, and an empty text issues none. -/
theorem test_hostDecrypt_no_command : hostDecrypt ['e', 'Q'] k1 = (.error .invalidSymbol, k1) ∧
    hostDecrypt [] k1 = (.ok [], k1) := by decide
/-- R57. -/
theorem test_assemble : assembleLine "LDK 5, 8, 0x11, 3 ; K1".toList = some (.ldk 5 8 17 3) ∧
    assembleLine "RDR STATUS".toList = some (.rdr 14) ∧ assembleLine "MODINV 32".toList = none := by decide

/-! Witnesses: for every obligation with hypotheses, states and operands that meet them, clause by clause, at the boundary values. -/

theorem k1Ready_inv : EngineInv k1Ready ∧ Ready k1Ready ∧ KeyValidated k1Ready ∧ InverseValid k1Ready := by decide
theorem witness_IllegalWordsAndTheirEffect :
    decode 0xB0000000 = .error .reservedOpcode ∧ Ready State.reset ∧ ¬ Ready pending ∧ 17 ≤ (17#5).toNat := by decide
theorem witness_EncodeOfDecodeIsTheWord : decode 0x70000001 = .ok (.mule 1 0) := by decide
theorem witness_StoredWordsAreLittleEndian : decode 0x9000000E = .ok (.rdr 14) ∧ 3 < 4 := by decide
theorem witness_OperandRangesAreChecked : Ready k1Ready ∧ KeyValidated k1Ready ∧ InverseValid k1Ready ∧
    wellFormed (.ldk 26 26 26 26) = true ∧ wellFormed (.ldk 26 26 27 26) = false ∧ wellFormed (.mule 26 26) = true ∧
    wellFormed (.muld 27 26) = false ∧ wellFormed (.rdr 16) = true ∧ wellFormed (.rdr 17) = false := by decide
theorem witness_StepRunsTheDecodedCommand :
    (k1.withFetchWord 32 0x20000000).inputs = .command 0x20000000 :: [] ∧ decode 0x20000000 = .ok .det ∧
    (k1.withFetchWord 32 0xF0000000).inputs = .command 0xF0000000 :: [] ∧
    decode 0xF0000000 = .error .reservedOpcode := by decide
theorem witness_CommonEntrySequence_refused : ¬ Ready pending ∧ decode 0x20000000 ≠ .ok .nop ∧
    (∀ r, decode 0x20000000 ≠ .ok (.rdr r)) ∧ decode 0x20000000 ≠ .ok .clre := by decide
theorem witness_CommonEntrySequence_illegal : Ready k1 ∧ decode 0x00100000 = .error .reservedBits := by decide
theorem witness_CommonEntrySequence_executes : decode 0x20000000 = .ok .det ∧ Ready k1 ∧ decode 0x90000010 = .ok (.rdr 16) ∧
    ¬ Ready pending := by decide
theorem witness_CommonEntrySequence_flags : Ready k1 ∧ ¬ KeyValidated k1 ∧ ¬ InverseValid k1 := by decide
theorem witness_IdleEngineKeepsItsState : k1.inputs = [] := by decide
theorem witness_ResetBetweenCommands :
    ({ k1Ready with inputs := [.reset, .command 0] } : State).inputs = .reset :: [.command 0] := by decide
theorem witness_ResetEdge : ({ rst := true, cmdValid := true, cmdData := 0, rspReady := true } : PortIn).rst = true := by decide
theorem witness_EveryStepKeepsTheInvariant : EngineInv (k1Ready.withFetchWord 32 0x70000001) ∧
    step (k1Ready.withFetchWord 32 0x70000001) = .next (after 0x70000001 k1Ready) := ⟨by decide, rfl⟩
theorem witness_LdkLoadsTheKey : Ready State.reset ∧ (0#5).toNat ≤ 26 ∧ (26#5).toNat ≤ 26 ∧ 26 < (27#5).toNat ∧
    26 < (31#5).toNat ∧ ¬ Ready pending := by decide
theorem witness_RdrReadsTheRegister : [(0 : Data), 1][(0#5).toNat]? = some 0 ∧ 17 ≤ (17#5).toNat ∧ 17 ≤ (31#5).toNat ∧
    Ready k1 ∧ ¬ Ready pending := by decide
/-- The last index that exists, 16, and the first, 0. -/
theorem witness_RdrReadsTheRegister_indices : regOfIndex 16 = some .id ∧ regOfIndex 0 = some .k00 ∧ regOfIndex 17 = none := by
  decide
theorem witness_IdIsHardwired : execWord 0x20000000 k1 = .next (after 0x20000000 k1) := rfl
theorem witness_ClreClearsTheError : EngineInv k1Ready ∧ Ready k1Ready := by decide
theorem witness_DetComputesTheDeterminant : Ready (keyed 26 0 0 26 0) ∧ ¬ Ready pending := by decide
/-- Inverses 1 and 26 at the ends of the search, and operands without one. -/
theorem witness_ModinvFindsTheSmallestInverse : Ready k1 ∧ ¬ Ready pending ∧
    (1#5).toNat * 1 % 27 = 1 ∧ (26#5).toNat * 26 % 27 = 1 ∧ (∀ y < 26, (26#5).toNat * y % 27 ≠ 1) ∧
    (∀ x < 27, (27#5).toNat * x % 27 ≠ 1) ∧ (∀ x < 27, (0#5).toNat * x % 27 ≠ 1) := by decide
theorem witness_ScalarInverseTable : modinv27 26 = some 26 ∧ 26 * 26 % 27 = 1 := by decide
theorem witness_GcdComputesTheGcd : Ready k1 ∧ ¬ Ready pending := by decide
theorem witness_EuclidIsTheGreatestCommonDivisor : (27 : Nat) ≠ 0 ∧ 3 ∣ 9 ∧ 3 ∣ 27 ∧ 31 < 32 := by decide
theorem witness_ValkValidatesTheKey : Ready k1 ∧ Int.gcd (keyDet k1 % 27) 27 = 1 ∧ Ready (keyed 3 3 2 5 0) ∧
    Int.gcd (keyDet (keyed 3 3 2 5 0) % 27) 27 ≠ 1 ∧ ¬ Ready pending := by decide
theorem witness_InvkInvertsTheKey : Ready k1 ∧ keyDet k1 % 27 * 2 % 27 = 1 ∧ keyDet k1 % 27 * 1 % 27 ≠ 1 ∧
    Ready State.reset ∧ keyDet State.reset = 0 ∧ ¬ Ready pending := by decide
theorem witness_InvkSucceedsExactlyOnValidKeys : Ready k1 ∧ exec .invk k1 = .next (after 0x60000000 k1) ∧
    Ready (after 0x60000000 k1) := ⟨by decide, rfl, by decide⟩
theorem witness_Mod27IsTheResidue : (0 : Int) ≤ 26 ∧ (27 : Int) ∣ -676 - 26 ∧ (26 : Nat) ≤ 26 := by decide
theorem witness_MuleMultipliesByTheKey : Ready k1Ready ∧ KeyValidated k1Ready ∧ (26#5).toNat ≤ 26 ∧ (0#5).toNat ≤ 26 ∧
    26 < (27#5).toNat ∧ Ready k1 ∧ ¬ KeyValidated k1 ∧ ¬ Ready pending := by decide
theorem witness_MuldMultipliesByTheInverse : Ready k1Ready ∧ InverseValid k1Ready ∧ (26#5).toNat ≤ 26 ∧ (0#5).toNat ≤ 26 ∧
    26 < (27#5).toNat ∧ Ready k1 ∧ ¬ InverseValid k1 ∧ ¬ Ready pending := by decide
theorem witness_BlockRoundTrip : EngineInv k1Ready ∧ Ready k1Ready ∧ KeyValidated k1Ready ∧ InverseValid k1Ready ∧
    (26#5).toNat ≤ 26 ∧ (0#5).toNat ≤ 26 := by decide
/-- Two states with one key and different result registers. -/
theorem witness_CallersBlocksDoNotInterfere : k1Ready.k00 = ({ k1Ready with out0 := 7, sinv := 5 } : State).k00 ∧
    k1Ready.i11 = ({ k1Ready with out0 := 7, sinv := 5 } : State).i11 ∧ Ready { k1Ready with out0 := 7, sinv := 5 } ∧
    KeyValidated { k1Ready with out0 := 7, sinv := 5 } ∧ InverseValid { k1Ready with out0 := 7, sinv := 5 } ∧
    (26#5).toNat ≤ 26 := by decide
theorem witness_RaiseRecordsTheFirstError : Ready k1 ∧ ¬ Ready pending := by decide
/-- With no error pending before, and with one. -/
theorem witness_ErrorsArePrecise : execWord 0x40000009 State.reset = .next (after 0x40000009 State.reset) ∧
    ¬ Ready (after 0x40000009 State.reset) ∧ execWord 0x90000011 pending = .next (after 0x90000011 pending) ∧
    ¬ Ready (after 0x90000011 pending) := ⟨rfl, by decide, rfl, by decide⟩
/-- One failing word for every command that can fail, at the smallest operand that does, and an illegal one. -/
theorem witness_ErrorsOfEachCommand : Ready State.reset ∧ ¬ Ready (after 0xB0000000 State.reset) ∧
    ¬ Ready (after 0x90000011 State.reset) ∧ ¬ Ready (after 0x1000001B State.reset) := by decide
theorem witness_ErrorsOfEachCommand_inverse : ¬ Ready (after 0x40000000 State.reset) ∧ ¬ Ready (after 0x60000000 State.reset) := by
  decide
theorem witness_ErrorsOfEachCommand_blocks : ¬ Ready (after 0x70000000 State.reset) ∧ ¬ Ready (after 0x80000000 State.reset) ∧
    Ready k1Ready ∧ ¬ Ready (after 0x7000001B k1Ready) ∧ ¬ Ready (after 0x80000360 k1Ready) :=
  ⟨by decide, by decide, by decide, by decide, by decide⟩
theorem witness_PendingErrorGatesCommands : ¬ Ready pending ∧ decode 0xB0000000 ≠ .ok .nop ∧
    (∀ r, decode 0xB0000000 ≠ .ok (.rdr r)) ∧ decode 0xB0000000 ≠ .ok .clre ∧ (16#5).toNat ≤ 16 := by decide
theorem witness_ClreUndoesAFailingCommand : EngineInv k1Ready ∧ Ready k1Ready ∧
    execWord 0x7000007B k1Ready = .next (after 0x7000007B k1Ready) ∧ ¬ Ready (after 0x7000007B k1Ready) ∧ ¬ Ready pending ∧
    execWord 0x20000000 pending = .next (after 0x20000000 pending) ∧ decode 0x20000000 ≠ .ok .clre :=
  ⟨by decide, by decide, rfl, by decide, by decide, rfl, by decide⟩
theorem witness_PendingErrorSkipsTheRestOfACall : ¬ Ready pending ∧
    ∀ w ∈ [0x5000036E#32, 0xB0000000#32, 0x90000011#32, 0x00000000#32], decode w ≠ .ok .clre :=
  ⟨by decide, by rw [List.forall_mem_cons, List.forall_mem_cons, List.forall_mem_cons, List.forall_mem_cons]; simp; decide⟩
/-- One word that changes each group of registers. -/
theorem witness_RegistersChangeOnlyByTheirCommands : (after 0x1001C505 State.reset).k00 ≠ State.reset.k00 ∧
    (after 0x60000000 k1).i00 ≠ k1.i00 ∧ (after 0x20000000 k1).det ≠ k1.det ∧ (after 0x30000000 k1).detm ≠ k1.detm ∧
    (after 0x4000000E k1).sinv ≠ k1.sinv ∧ (after 0x5000036E k1).gcdr ≠ k1.gcdr ∧
    (after 0x70000001 k1Ready).out0 ≠ k1Ready.out0 ∧ (after 0x80000001 k1Ready).out1 ≠ k1Ready.out1 ∧
    (after 0x40000009 k1).earg ≠ k1.earg ∧ (after 0xA0000000 pending).earg ≠ pending.earg := by decide
/-- Every field of `STATUS` set and cleared. -/
theorem witness_StatusFieldsChangeOnlyAsStated : k1Ready.status.extractLsb' 6 2 = 0#2 ∧ ¬ Ready (after 0x40000009 k1) ∧
    Ready (after 0xA0000000 pending) ∧ (after 0x40000009 k1).status.extractLsb' 8 4 ≠ k1.status.extractLsb' 8 4 := by decide
theorem witness_StatusFieldsChangeOnlyAsStated_kv : ¬ KeyValidated k1 ∧ KeyValidated (after 0x30000000 k1) ∧
    ¬ KeyValidated (after 0x1001C505 k1Ready) ∧ ¬ KeyValidated (after 0x30000000 (keyed 3 3 2 5 0x010)) := by decide
theorem witness_StatusFieldsChangeOnlyAsStated_iv : ¬ InverseValid k1 ∧ InverseValid (after 0x60000000 k1) ∧
    ¬ InverseValid (after 0x1001C505 k1Ready) := by decide
theorem witness_LdkInvalidatesKeyAndInverse : Ready k1Ready ∧ exec (.ldk 5 8 17 3) k1Ready = .next (after 0x1001C505 k1Ready) ∧
    Ready (after 0x1001C505 k1Ready) := ⟨by decide, rfl, by decide⟩
/-- A history that sets both flags, and with one more word a history that clears them. -/
theorem witness_FlagsRecordTheHistory : ∃ t u, runCommands [0x1001C505, 0x30000000, 0x60000000] State.reset = .next t ∧
    KeyValidated t ∧ InverseValid t ∧ runCommands [0x1001C505, 0x30000000, 0x60000000, 0x1001C505] State.reset = .next u ∧
    ¬ KeyValidated u ∧ ¬ InverseValid u := ⟨_, _, rfl, by decide, by decide, rfl, by decide, by decide⟩
theorem witness_InitialisedEngineRunsItsBlocks : Ready State.reset ∧ (26#5).toNat ≤ 26 ∧
    Int.gcd ((((26#5).toNat : Int) * (26#5).toNat - (0#5).toNat * (0#5).toNat) % 27) 27 = 1 ∧
    ∀ p ∈ [(26#5, 1#5)] ++ [(1#5, 26#5)], p.1.toNat ≤ 26 ∧ p.2.toNat ≤ 26 := ⟨by decide, by decide, by decide, by simp⟩
/-- An accepted command, a response held and a response accepted. -/
theorem witness_HandshakeHoldsOneCommand :
    portAccepts { rst := false, cmdValid := true, cmdData := 7, rspReady := false }
      { engine := k1, phase := .idle, drawn := 0 } = some 7 ∧
    (portOut { engine := k1, phase := .idle, drawn := 0 }).cmdReady = true ∧
    (portOut { engine := k1, phase := .offering 9, drawn := 0 }).rsp = some 9 := by decide
theorem witness_HandshakeRefinesARun :
    ∀ i ∈ [({ rst := false, cmdValid := true, cmdData := 0, rspReady := true } : PortIn)], i.rst = false := by decide
theorem witness_EveryAcceptedCommandIsAnswered :
    portAccepts { rst := false, cmdValid := true, cmdData := 7, rspReady := false }
      { engine := k1, phase := .idle, drawn := 0 } = some 7 ∧
    ({ rst := true, cmdValid := false, cmdData := 0, rspReady := false } : PortIn).rst = true := by decide
theorem witness_CodecBijection : (0#5).toNat ≤ 26 ∧ (26#5).toNat ≤ 26 ∧ 26 < (27#5).toNat ∧ 26 < (31#5).toNat ∧
    symbolToValue 'z' = .ok 26 ∧ symbolToValue ' ' = .ok 0 ∧ ('A' ≠ ' ' ∧ ¬ ('a'.toNat ≤ 'A'.toNat ∧ 'A'.toNat ≤ 'z'.toNat)) := by
  decide
/-- A text of odd length. -/
theorem witness_TextRoundTrip : EngineInv k1Ready ∧ Ready k1Ready ∧ KeyValidated k1Ready ∧
    ∀ c ∈ ['a', ' ', 'z'], ∃ n, symbolToValue c = .ok n := ⟨by decide, by decide, by decide, by simp [symbolToValue]⟩
theorem witness_OddCiphertextIsRefusedByTheHost : ['z', 'p', 'u'].length % 2 = 1 := by decide
theorem witness_TextsThatIssueNoCommand : (∃ c ∈ ['a', '1'], ∀ n, symbolToValue c.toLower ≠ .ok n) ∧ ['a', 'Q'].length % 2 = 0 ∧
    (∃ c ∈ ['a', 'Q'], ∀ n, symbolToValue c ≠ .ok n) :=
  ⟨⟨'1', by decide, by decide⟩, by decide, ⟨'Q', by decide, by decide⟩⟩
theorem witness_EncryptOnUnvalidatedKeyFails : EngineInv k1 ∧ Ready k1 ∧ ¬ KeyValidated k1 ∧ ['a'] ≠ [] ∧
    ∀ c ∈ ['a'], ∃ n, symbolToValue c = .ok n := ⟨by decide, by decide, by decide, by decide, by simp [symbolToValue]⟩
/-- A key that is accepted and one that is not. -/
theorem witness_HostAcceptsExactlyValidKeys : Ready State.reset ∧ (26#5).toNat ≤ 26 ∧ (0#5).toNat ≤ 26 ∧
    (hostAcceptKey 26 0 0 26 State.reset).1 = .ok true ∧ (hostAcceptKey 26 26 26 26 State.reset).1 = .ok false := by decide
theorem witness_PseudoInstructionsExpand : [((8 : Field), (5 : Field))][0]? = some (8, 5) := by decide

end Sys2Proof.Tests
end

section
/-! SUPPORT. R7: the non-negative residue is unique, it is the truncated remainder brought up by 27 where that is negative, and
products of values 0 to 26 stay within 676. -/

namespace Sys2Proof.Machine

theorem dvd_sub_mod27 (z : Int) : (27 : Int) ∣ z - mod27 z := by
  rw [mod27_cast]; exact Int.dvd_self_sub_emod

/-- A number from 0 to 26 that differs from `z` by a multiple of 27 is the residue. -/
theorem eq_mod27_of_dvd_sub {z r : Int} (h0 : 0 ≤ r) (h26 : r ≤ 26) (hdvd : (27 : Int) ∣ z - r) : r = mod27 z := by
  have hmod : r % 27 = z % 27 := Int.modEq_iff_dvd.2 hdvd
  rw [mod27_cast, ← hmod, Int.emod_eq_of_lt h0 (by omega)]

theorem trem_eq_sub (z m : Int) : trem z m = z - m * z.tdiv m := Int.tmod_def z m

theorem trem_nonneg {z : Int} (m : Int) (h : 0 ≤ z) : 0 ≤ trem z m := Int.tmod_nonneg m h

/-- The truncated remainder changes its sign with its dividend. -/
theorem trem_neg (z m : Int) : trem (-z) m = -trem z m := Int.neg_tmod z m

theorem trem_nonpos {z : Int} (m : Int) (h : z ≤ 0) : trem z m ≤ 0 := by
  have := trem_nonneg m (Int.neg_nonneg_of_nonpos h)
  rw [trem_neg] at this
  omega

/-- R7: the residue from the truncated remainder. Either branch is in range and differs from `z` by a multiple of 27. -/
theorem mod27_eq_trem (z : Int) : (mod27 z : Int) = if 0 ≤ trem z 27 then trem z 27 else trem z 27 + 27 := by
  have hlt : trem z 27 < 27 := Int.tmod_lt_of_pos z (by decide)
  have hgt : -27 < trem z 27 := Int.lt_tmod_of_pos z (by decide)
  have hdvd : (27 : Int) ∣ z - trem z 27 := Int.dvd_self_sub_tmod
  split
  · exact (eq_mod27_of_dvd_sub ‹_› (by omega) hdvd).symm
  · exact (eq_mod27_of_dvd_sub (by omega) (by omega) (by omega)).symm

/-- The bounds of sums, differences and negated products all follow from this one. -/
theorem mul_le_676 {a b : Nat} (ha : a ≤ 26) (hb : b ≤ 26) : a * b ≤ 676 := Nat.mul_le_mul ha hb

/-- Settles O31: the residue by `mod27_cast` and its uniqueness, the truncated remainder by the library's `Int.tmod`, and the bounds
from the bound of one product. -/
theorem mod27IsTheResidue : Obligations.Mod27IsTheResidue := by
  refine ⟨fun z => ⟨mod27_le z, dvd_sub_mod27 z⟩, fun _ _ => eq_mod27_of_dvd_sub, trem_eq_sub,
    fun _ m => ⟨trem_nonneg m, trem_nonpos m⟩, mod27_eq_trem, fun a b c d ha hb hc hd => ?_⟩
  have hab := mul_le_676 ha hb
  have hcd := mul_le_676 hc hd
  rw [neg_mul, ← Nat.cast_mul, ← Nat.cast_mul]
  omega

end Sys2Proof.Machine
end

section
/-! SUPPORT. What a command word can do: the word that decodes to a command is the command's word, every word answers a next state, and
it is one of those `WordEffect` lists. -/

namespace Sys2Proof

/-! A word from its opcode and operand fields, for each of the four operand formats of R52. -/

section
variable {w : Word} {op : BitVec 4}

theorem packWord_four (h : opField w = op ∧ rsvField w = 0#8) :
    packWord op (field3 w) (field2 w) (field1 w) (field0 w) = w := by
  obtain ⟨rfl, hr⟩ := h
  exact packWord_fields w hr

theorem packWord_two (h : opField w = op ∧ rsvField w = 0#8 ∧ w.extractLsb' 10 10 = 0#10) :
    packWord op 0 0 (field1 w) (field0 w) = w := by
  obtain ⟨hop, hr, h10⟩ := h
  obtain ⟨h2, h3⟩ := fields_zero_from10 w h10
  simpa only [h2, h3] using packWord_four ⟨hop, hr⟩

theorem packWord_one (h : opField w = op ∧ rsvField w = 0#8 ∧ w.extractLsb' 5 15 = 0#15) :
    packWord op 0 0 0 (field0 w) = w := by
  obtain ⟨hop, hr, h5⟩ := h
  obtain ⟨h1, h2, h3⟩ := fields_zero_from5 w h5
  simpa only [h1, h2, h3] using packWord_four ⟨hop, hr⟩

theorem packWord_none (h : opField w = op ∧ rsvField w = 0#8 ∧ w.extractLsb' 0 20 = 0#20) : packWord op 0 0 0 0 = w := by
  obtain ⟨hop, hr, h0⟩ := h
  obtain ⟨h0, h1, h2, h3⟩ := fields_zero w h0
  simpa only [h0, h1, h2, h3] using packWord_four ⟨hop, hr⟩

end

/-- A word that decodes matches a row of the opcode map (R52), and the command is that row's. -/
theorem row_of_decode {w : Word} {i : Instr} (h : decode w = .ok i) :
    ∃ r ∈ opcodeRows, w &&& r.mask = r.matchBits ∧ r.build w = i := by
  unfold decode decodeRows at h
  split at h
  · rename_i r hr
    exact ⟨r, List.mem_of_find?_eq_some hr, by simpa [Row.hits] using List.find?_some hr, by simpa using h⟩
  · cases h

/-- Each row of the opcode map fixes every bit that is no operand of its command. -/
theorem encode_build (w : Word) : ∀ r ∈ opcodeRows, w &&& r.mask = r.matchBits → encode (r.build w) = w := by
  unfold opcodeRows
  simp only [List.forall_mem_cons, List.not_mem_nil, false_implies, implies_true, and_true]
  exact ⟨fun nop => packWord_none ((mask_all w 0 _ (by decide)).1 nop),
    fun ldk => packWord_four ((mask_from20 w 1 _ (by decide)).1 ldk),
    fun det => packWord_none ((mask_all w 2 _ (by decide)).1 det),
    fun valk => packWord_none ((mask_all w 3 _ (by decide)).1 valk),
    fun modinv => packWord_one ((mask_from5 w 4 _ (by decide)).1 modinv),
    fun gcd => packWord_two ((mask_from10 w 5 _ (by decide)).1 gcd),
    fun invk => packWord_none ((mask_all w 6 _ (by decide)).1 invk),
    fun mule => packWord_two ((mask_from10 w 7 _ (by decide)).1 mule),
    fun muld => packWord_two ((mask_from10 w 8 _ (by decide)).1 muld),
    fun rdr => packWord_one ((mask_from5 w 9 _ (by decide)).1 rdr),
    fun clre => packWord_none ((mask_all w 10 _ (by decide)).1 clre)⟩

/-- No two words are one command: what decodes to a command is that command's word. -/
theorem encode_of_decode {w : Word} {i : Instr} (h : decode w = .ok i) : encode i = w := by
  obtain ⟨r, hr, hw, rfl⟩ := row_of_decode h
  exact encode_build w r hr hw

end Sys2Proof

namespace Sys2Proof.Machine

/-- Every way the command word `w` can end in `s`: as the command it decodes to, or as an illegal word (R55). -/
inductive WordEffect (w : Word) (s : State) : State → Prop
  | command (i : Instr) (t : State) (hd : decode w = .ok i) (he : Effect i s t) : WordEffect w s t
  | illegalRefused (e : Illegal) (hd : decode w = .error e) (hp : ¬ Ready s) : WordEffect w s (answerWith 0 s)
  | illegalRaised (e : Illegal) (hd : decode w = .error e) (hr : Ready s) :
      WordEffect w s (answerWith 0 (recordError .illegalCommand w s))

/-- A word that decodes is executed as its command (R134). -/
theorem execWord_of_decode {w : Word} {i : Instr} (h : decode w = .ok i) (s : State) : execWord w s = exec i s := by
  unfold execWord; rw [h]

theorem execWord_of_illegal {w : Word} {e : Illegal} (h : decode w = .error e) (s : State) :
    execWord w s = execIllegal w s := by
  unfold execWord; rw [h]

/-- R55, R119: every word in every state has a next state, and it is one of those `WordEffect` lists. -/
theorem execWord_effect (w : Word) (s : State) : ∃ t, execWord w s = .next t ∧ WordEffect w s t := by
  cases hd : decode w with
  | ok i =>
    obtain ⟨t, ht, he⟩ := exec_effect i s
    exact ⟨t, by rw [execWord_of_decode hd, ht], .command i t hd he⟩
  | error e =>
    rw [execWord_of_illegal hd]
    by_cases hr : Ready s
    · exact ⟨_, gated_ready s _ hr, .illegalRaised e hd hr⟩
    · exact ⟨_, if_neg hr, .illegalRefused e hd hr⟩

/-- The inversion: a next state of `execWord` is one of those `WordEffect` lists. -/
theorem wordEffect_of_execWord {w : Word} {s t : State} (h : execWord w s = .next t) : WordEffect w s t := by
  obtain ⟨u, hu, he⟩ := execWord_effect w s
  rw [h] at hu
  cases hu
  exact he

end Sys2Proof.Machine
end

section
/-! SUPPORT. R26: the invariant with a name for each of its parts, and one rule per write of a command that says what keeps it. -/

namespace Sys2Proof.Machine

/-- `EngineInv` with its parts named (R10 for the legal contents, R26 (b) to (f) for the rest). -/
structure StateInv (s : State) : Prop where
  key_legal : s.k00.toNat ≤ 26 ∧ s.k01.toNat ≤ 26 ∧ s.k10.toNat ≤ 26 ∧ s.k11.toNat ≤ 26
  inverse_legal : s.i00.toNat ≤ 26 ∧ s.i01.toNat ≤ 26 ∧ s.i10.toNat ≤ 26 ∧ s.i11.toNat ≤ 26
  det_legal : -676 ≤ s.det.toInt ∧ s.det.toInt ≤ 676
  detm_legal : s.detm.toNat ≤ 26
  sinv_legal : s.sinv.toNat ≤ 26
  out_legal : s.out0.toNat ≤ 26 ∧ s.out1.toNat ≤ 26
  zero_bits : s.status.extractLsb' 6 2 = 0#2
  kv_sound : KeyValidated s → Int.gcd (keyDet s % 27) 27 = 1
  iv_sound : InverseValid s → InverseOfKey s
  iv_clear : ¬ InverseValid s → s.i00 = 0 ∧ s.i01 = 0 ∧ s.i10 = 0 ∧ s.i11 = 0
  no_error_clean : Ready s → s.status.extractLsb' 8 4 = 0#4 ∧ s.earg = 0
  err_code : s.status.extractLsb' 0 4 ∈ [0#4, 2#4, 3#4, 5#4, 6#4, 7#4]

theorem engineInv_iff (s : State) : EngineInv s ↔ StateInv s := by
  constructor
  · rintro ⟨⟨k00, k01, k10, k11, i00, i01, i10, i11, det, detm, sinv, out0, out1, zero⟩, kv, iv, niv, clean, code⟩
    exact ⟨⟨k00, k01, k10, k11⟩, ⟨i00, i01, i10, i11⟩, det, detm, sinv, ⟨out0, out1⟩, zero, kv, iv, niv, clean, code⟩
  · rintro ⟨⟨k00, k01, k10, k11⟩, ⟨i00, i01, i10, i11⟩, det, detm, sinv, ⟨out0, out1⟩, zero, kv, iv, niv, clean, code⟩
    exact ⟨⟨k00, k01, k10, k11, i00, i01, i10, i11, det, detm, sinv, out0, out1, zero⟩, kv, iv, niv, clean, code⟩

theorem stateInv_answerWith {d : Data} {s : State} (h : StateInv s) : StateInv (answerWith d s) := by
  rwa [← engineInv_iff, engineInv_answerWith, engineInv_iff]

/-! Residues in a 5-bit register. -/

theorem toField_mod27_toNat (z : Int) : (toField (mod27 z)).toNat = mod27 z :=
  toField_toNat _ (by have := mod27_le z; omega)

theorem toField_mod27_le (z : Int) : (toField (mod27 z)).toNat ≤ 26 := by
  rw [toField_mod27_toNat]; exact mod27_le z

theorem toField_le {n : Nat} (h : n ≤ 26) : (toField n).toNat ≤ 26 := by
  rwa [toField_toNat n (by omega)]

/-- Residues may be taken in a sum of two products before it is reduced. -/
theorem add_mul_mod27 (a b : Nat) (y z : Int) : (a * mod27 y + b * mod27 z) % 27 = mod27 (a * y + b * z) := by
  have hy : (mod27 y : Int) ≡ y [ZMOD 27] := mod27_cast y ▸ Int.mod_modEq y 27
  have hz : (mod27 z : Int) ≡ z [ZMOD 27] := mod27_cast z ▸ Int.mod_modEq z 27
  rw [← mod27_nat]
  push_cast
  exact congrArg Int.toNat ((hy.mul_left a).add (hz.mul_left b))

/-- R88: the adjugate times an inverse `x` of the determinant is an inverse of the key on both sides (R26 (c)). -/
theorem inverseOfKey_adjugate {s : State} {x : Int} (hx : mod27 (keyDet s * x) = 1)
    (h00 : s.i00.toNat = mod27 (s.k11.toNat * x)) (h01 : s.i01.toNat = mod27 (-s.k01.toNat * x))
    (h10 : s.i10.toNat = mod27 (-s.k10.toNat * x)) (h11 : s.i11.toNat = mod27 (s.k00.toNat * x)) : InverseOfKey s := by
  have one : ∀ z : Int, z = keyDet s * x → mod27 z = 1 := fun z hz => hz ▸ hx
  have zero : ∀ z : Int, z = 0 → mod27 z = 0 := fun z hz => hz ▸ rfl
  unfold InverseOfKey
  rw [h00, h01, h10, h11]
  simp only [Nat.mul_comm (mod27 _), add_mul_mod27]
  exact ⟨one _ (by ring), zero _ (by ring), zero _ (by ring), one _ (by ring),
    one _ (by ring), zero _ (by ring), zero _ (by ring), one _ (by ring)⟩

/-- The inverse the search of R83 finds for the reduced determinant is one for the determinant. -/
theorem mod27_mul_of_modinv27 {z : Int} {x : Nat} (h : modinv27 (mod27 z) = some x) : mod27 (z * x) = 1 := by
  obtain ⟨-, -, hx, -⟩ := (modinv27_eq_some _ _).1 h
  have hz : (mod27 z : Int) * x ≡ z * x [ZMOD 27] := (mod27_cast z ▸ Int.mod_modEq z 27).mul_right x
  rw [← hx, ← mod27_nat]
  push_cast
  exact congrArg Int.toNat hz.symm

theorem modinv27_le {a x : Nat} (h : modinv27 a = some x) : x ≤ 26 := by
  obtain ⟨-, hx, -, -⟩ := (modinv27_eq_some _ _).1 h
  exact hx

/-- The test of `VALK` (R87) is coprimality of the determinant and 27. -/
theorem euclid_mod27 (z : Int) : euclid (mod27 z) 27 = Int.gcd (z % 27) 27 := by
  rw [euclid_eq, ← mod27_cast]; rfl

/-- R13: the determinant of a legal key lies within ±676, so the `DET` register holds it. -/
theorem keyDeterminant_range {s : State} (h : StateInv s) :
    -676 ≤ (toDet (keyDeterminant s)).toInt ∧ (toDet (keyDeterminant s)).toInt ≤ 676 := by
  obtain ⟨h00, h01, h10, h11⟩ := h.key_legal
  have had := mul_le_676 h00 h11
  have hbc := mul_le_676 h01 h10
  unfold keyDeterminant
  rw [toDet_determinant, determinant]
  zify at had hbc
  have := Int.mul_nonneg (Int.natCast_nonneg s.k00.toNat) (Int.natCast_nonneg s.k11.toNat)
  have := Int.mul_nonneg (Int.natCast_nonneg s.k01.toNat) (Int.natCast_nonneg s.k10.toNat)
  omega

namespace StateInv

/-! One rule per write. A write to a register the invariant does not mention together with another keeps all other parts. -/

variable {s : State}

theorem setDet (h : StateInv s) : StateInv { s with det := toDet (keyDeterminant s) } :=
  { h with det_legal := keyDeterminant_range h }

theorem setDetm {n : Nat} (h : StateInv s) (hn : n ≤ 26) : StateInv { s with detm := toField n } :=
  { h with detm_legal := toField_le hn }

theorem setSinv {n : Nat} (h : StateInv s) (hn : n ≤ 26) : StateInv { s with sinv := toField n } :=
  { h with sinv_legal := toField_le hn }

/-- `GCDR` may hold any 5-bit value (R10). -/
theorem setGcdr (h : StateInv s) (g : Field) : StateInv { s with gcdr := g } := { h with }

theorem setOut {m n : Nat} (h : StateInv s) (hm : m ≤ 26) (hn : n ≤ 26) :
    StateInv { s with out0 := toField m, out1 := toField n } :=
  { h with out_legal := ⟨toField_le hm, toField_le hn⟩ }

/-- R26 (b): `KV` may be written 1 only on a key with determinant coprime to 27. -/
theorem setKv (h : StateInv s) {b : Bool} (hb : b = true → Int.gcd (keyDet s % 27) 27 = 1) :
    StateInv { s with status := statusSetKv b s.status } where
  __ := h
  zero_bits := (setKv_bits b s.status 6 2 (by omega)).trans h.zero_bits
  kv_sound hkv := hb ((statusKv_setKv b s.status).symm.trans hkv)
  iv_sound hiv := h.iv_sound ((statusIv_setKv b s.status).symm.trans hiv)
  iv_clear hiv := h.iv_clear fun hs => hiv ((statusIv_setKv b s.status).trans hs)
  no_error_clean hr := by
    obtain ⟨heop, hearg⟩ := h.no_error_clean ((statusErr_setKv b s.status).symm.trans hr)
    exact ⟨(statusEop_setKv b s.status).trans heop, hearg⟩
  err_code := by rw [setKv_bits b s.status 0 4 (by omega)]; exact h.err_code

/-- R26 (c): `IV` may be written 1 only together with an inverse of the key. -/
theorem setInverse (h : StateInv s) {x : Nat} (hx : mod27 (keyDet s * x) = 1) :
    StateInv { s with
      i00 := toField (mod27 (s.k11.toNat * x)), i01 := toField (mod27 (-s.k01.toNat * x))
      i10 := toField (mod27 (-s.k10.toNat * x)), i11 := toField (mod27 (s.k00.toNat * x))
      status := statusSetIv true s.status } where
  __ := h
  inverse_legal := ⟨toField_mod27_le _, toField_mod27_le _, toField_mod27_le _, toField_mod27_le _⟩
  zero_bits := (setIv_bits true s.status 6 2 (by omega)).trans h.zero_bits
  kv_sound hkv := h.kv_sound ((statusKv_setIv true s.status).symm.trans hkv)
  iv_sound _ := inverseOfKey_adjugate hx (toField_mod27_toNat _) (toField_mod27_toNat _) (toField_mod27_toNat _)
    (toField_mod27_toNat _)
  iv_clear hiv := absurd (statusIv_setIv true s.status) hiv
  no_error_clean hr := by
    obtain ⟨heop, hearg⟩ := h.no_error_clean ((statusErr_setIv true s.status).symm.trans hr)
    exact ⟨(statusEop_setIv true s.status).trans heop, hearg⟩
  err_code := by rw [setIv_bits true s.status 0 4 (by omega)]; exact h.err_code

/-- Loading a key (R70) clears both flags, so nothing is claimed of it, and the inverse registers. -/
theorem loadKey (h : StateInv s) {a b c d : Field} (hv : a.toNat ≤ 26 ∧ b.toNat ≤ 26 ∧ c.toNat ≤ 26 ∧ d.toNat ≤ 26) :
    StateInv { s with
      k00 := a, k01 := b, k10 := c, k11 := d, i00 := 0, i01 := 0, i10 := 0, i11 := 0
      status := statusSetIv false (statusSetKv false s.status) } where
  __ := h
  key_legal := hv
  inverse_legal := ⟨Nat.zero_le _, Nat.zero_le _, Nat.zero_le _, Nat.zero_le _⟩
  zero_bits := by
    rw [setIv_bits _ _ 6 2 (by omega), setKv_bits _ _ 6 2 (by omega)]; exact h.zero_bits
  kv_sound hkv := by simp [keyValidated_iff] at hkv
  iv_sound hiv := by simp [inverseValid_iff] at hiv
  iv_clear _ := ⟨rfl, rfl, rfl, rfl⟩
  no_error_clean hr := by
    rw [setIv_bits _ _ 8 4 (by omega), setKv_bits _ _ 8 4 (by omega)]
    exact h.no_error_clean (by simpa [ready_iff] using hr)
  err_code := by
    rw [setIv_bits _ _ 0 4 (by omega), setKv_bits _ _ 0 4 (by omega)]; exact h.err_code

/-- An error record over `s` (R132, R73) keeps the invariant if its code is one of the engine's and it is clean without an error. -/
theorem setError (h : StateInv s) {err eop : BitVec 4} {earg : Data} (hcode : err ∈ [0#4, 2#4, 3#4, 5#4, 6#4, 7#4])
    (hclean : err = 0#4 → eop = 0#4 ∧ earg = 0) :
    StateInv { s with status := statusSetError err eop s.status, earg := earg } where
  __ := h
  zero_bits := (setError_bits err eop s.status 6 2 (by omega)).trans h.zero_bits
  kv_sound hkv := h.kv_sound ((statusKv_setError err eop s.status).symm.trans hkv)
  iv_sound hiv := h.iv_sound ((statusIv_setError err eop s.status).symm.trans hiv)
  iv_clear hiv := h.iv_clear fun hs => hiv ((statusIv_setError err eop s.status).trans hs)
  no_error_clean hr := by
    obtain ⟨heop, hearg⟩ := hclean ((statusErr_setError err eop s.status).symm.trans hr)
    exact ⟨(statusEop_setError err eop s.status).trans heop, hearg⟩
  err_code := by
    rwa [show (statusSetError err eop s.status).extractLsb' 0 4 = err from statusErr_setError err eop s.status]

theorem recordError (h : StateInv s) (e : EngineError) (cmd : Word) : StateInv (recordError e cmd s) := by
  unfold Machine.recordError
  split
  · exact h.setError (by cases e <;> decide) fun h0 => absurd h0 (errorCode_ne_zero e)
  · exact h

theorem clearError (h : StateInv s) : StateInv (clearError s) := h.setError (by decide) fun _ => ⟨rfl, rfl⟩

end StateInv

/-- R26 for one command: each way a command ends is a composition of the writes above. -/
theorem stateInv_of_effect {i : Instr} {s t : State} (he : Effect i s t) (h : StateInv s) : StateInv t := by
  cases he with
  | refused => exact stateInv_answerWith h
  | raised e => exact stateInv_answerWith (h.recordError e _)
  | nop => exact stateInv_answerWith h
  | read => exact stateInv_answerWith h
  | cleared => exact stateInv_answerWith h.clearError
  | loaded a b c d _ _ hv => exact stateInv_answerWith (h.loadKey hv)
  | det => exact stateInv_answerWith h.setDet
  | valk =>
    have hkv : decide (euclid (mod27 (keyDeterminant s)) 27 = 1) = true → Int.gcd (keyDet s % 27) 27 = 1 := fun hg => by
      rw [← euclid_mod27]; exact of_decide_eq_true hg
    exact stateInv_answerWith (((h.setDet.setDetm (mod27_le _)).setGcdr _).setKv hkv)
  | modinv a x _ _ hx => exact stateInv_answerWith (h.setSinv (modinv27_le hx))
  | gcd => exact stateInv_answerWith (h.setGcdr _)
  | invk x _ _ hx =>
    exact stateInv_answerWith
      (((h.setDet.setDetm (mod27_le _)).setSinv (modinv27_le hx)).setInverse (mod27_mul_of_modinv27 hx))
  | mule v0 v1 => exact stateInv_answerWith (h.setOut (rowProduct_le ..) (rowProduct_le ..))
  | muld v0 v1 => exact stateInv_answerWith (h.setOut (rowProduct_le ..) (rowProduct_le ..))

/-- R26 for one command word. -/
theorem execWord_keeps_engineInv {w : Word} {s t : State} (h : EngineInv s) (ht : execWord w s = .next t) : EngineInv t := by
  rw [engineInv_iff] at h ⊢
  cases wordEffect_of_execWord ht with
  | command i _ _ he => exact stateInv_of_effect he h
  | illegalRefused => exact stateInv_answerWith h
  | illegalRaised => exact stateInv_answerWith (h.recordError _ w)

/-- The invariant says nothing of the host's events. -/
theorem engineInv_withInputs (l : List HostInput) (s : State) : EngineInv (withInputs l s) ↔ EngineInv s := Iff.rfl

/-- Settles O15. -/
theorem resetMeetsTheInvariant : Obligations.ResetMeetsTheInvariant := by
  unfold Obligations.ResetMeetsTheInvariant
  decide

/-- The invariant is about the registers, which reset gives their reset values. -/
theorem engineInv_takeReset (s : State) : EngineInv (takeReset s) := resetMeetsTheInvariant

/-- What a step does, by the host's next event. -/
theorem step_cases {s t : State} (h : step s = .next t) :
    (s.inputs = [] ∧ t = s) ∨
    (∃ w rest, s.inputs = .command w :: rest ∧ execWord w (withInputs rest s) = .next t) ∨
    (∃ rest, s.inputs = .reset :: rest ∧ t = takeReset (withInputs rest s)) := by
  unfold step stepEngine takeInput at h
  match hin : s.inputs with
  | [] =>
    rw [hin] at h
    cases h
    exact .inl ⟨rfl, rfl⟩
  | .command w :: rest =>
    rw [hin] at h
    exact .inr (.inl ⟨w, rest, rfl, h⟩)
  | .reset :: rest =>
    rw [hin] at h
    cases h
    exact .inr (.inr ⟨rest, rfl, rfl⟩)

/-- Settles O16: a step is a command word, a reset or nothing, and each keeps the invariant. -/
theorem everyStepKeepsTheInvariant : Obligations.EveryStepKeepsTheInvariant := by
  intro s t h ht
  obtain ⟨-, rfl⟩ | ⟨w, rest, -, hw⟩ | ⟨rest, -, rfl⟩ := step_cases ht
  · exact h
  · exact execWord_keeps_engineInv ((engineInv_withInputs rest s).2 h) hw
  · exact engineInv_takeReset _

/-! Runs of command words. -/

theorem runCommands_cons {w : Word} {s v : State} (h : execWord w s = .next v) (ws : List Word) :
    runCommands (w :: ws) s = runCommands ws v := by
  rw [runCommands, h]

/-- Every run of words has a final state, and it meets the invariant if the first state does. -/
theorem runCommands_keeps_engineInv (ws : List Word) {s : State} (h : EngineInv s) :
    ∃ t, runCommands ws s = .next t ∧ EngineInv t := by
  induction ws generalizing s with
  | nil => exact ⟨s, rfl, h⟩
  | cons w ws ih =>
    obtain ⟨v, hv, -⟩ := execWord_effect w s
    rw [runCommands_cons hv]
    exact ih (execWord_keeps_engineInv h hv)

/-- Settles O17. -/
theorem everyRunFromResetMeetsTheInvariant : Obligations.EveryRunFromResetMeetsTheInvariant :=
  fun ws => runCommands_keeps_engineInv ws resetMeetsTheInvariant

end Sys2Proof.Machine
end

section
/-! SUPPORT. The registers over all words (R10, R25, R21): what each holds after reset, and which words can change it. -/

namespace Sys2Proof.Machine

@[simp] theorem answerWith_k00 (d : Data) (s : State) : (answerWith d s).k00 = s.k00 := rfl
@[simp] theorem answerWith_k01 (d : Data) (s : State) : (answerWith d s).k01 = s.k01 := rfl
@[simp] theorem answerWith_k10 (d : Data) (s : State) : (answerWith d s).k10 = s.k10 := rfl
@[simp] theorem answerWith_k11 (d : Data) (s : State) : (answerWith d s).k11 = s.k11 := rfl
@[simp] theorem answerWith_i00 (d : Data) (s : State) : (answerWith d s).i00 = s.i00 := rfl
@[simp] theorem answerWith_i01 (d : Data) (s : State) : (answerWith d s).i01 = s.i01 := rfl
@[simp] theorem answerWith_i10 (d : Data) (s : State) : (answerWith d s).i10 = s.i10 := rfl
@[simp] theorem answerWith_i11 (d : Data) (s : State) : (answerWith d s).i11 = s.i11 := rfl
@[simp] theorem answerWith_det (d : Data) (s : State) : (answerWith d s).det = s.det := rfl
@[simp] theorem answerWith_detm (d : Data) (s : State) : (answerWith d s).detm = s.detm := rfl
@[simp] theorem answerWith_sinv (d : Data) (s : State) : (answerWith d s).sinv = s.sinv := rfl
@[simp] theorem answerWith_gcdr (d : Data) (s : State) : (answerWith d s).gcdr = s.gcdr := rfl
@[simp] theorem answerWith_out0 (d : Data) (s : State) : (answerWith d s).out0 = s.out0 := rfl
@[simp] theorem answerWith_out1 (d : Data) (s : State) : (answerWith d s).out1 = s.out1 := rfl

theorem recordError_ready (e : EngineError) (cmd : Word) {s : State} (h : Ready s) :
    recordError e cmd s =
      { s with status := statusSetError (errorCode e) (opField cmd) s.status, earg := operandBits cmd } := if_pos h

/-- R132: an error raised with none pending is pending. -/
theorem not_ready_answerWith_recordError (e : EngineError) (cmd : Word) {s : State} (h : Ready s) :
    ¬ Ready (answerWith 0 (recordError e cmd s)) :=
  not_ready_of_raises (raisesError_answerWith e cmd s h)

/-- The column "Written by" of R10, for the word `w` executed from `s` to `t`. -/
def ChangesOnlyItsRegisters (w : Word) (s t : State) : Prop :=
  ((t.k00 ≠ s.k00 ∨ t.k01 ≠ s.k01 ∨ t.k10 ≠ s.k10 ∨ t.k11 ≠ s.k11) → ∃ a b c d, decode w = .ok (.ldk a b c d)) ∧
  ((t.i00 ≠ s.i00 ∨ t.i01 ≠ s.i01 ∨ t.i10 ≠ s.i10 ∨ t.i11 ≠ s.i11) →
    (∃ a b c d, decode w = .ok (.ldk a b c d)) ∨ decode w = .ok .invk) ∧
  (t.det ≠ s.det → decode w = .ok .det ∨ decode w = .ok .valk ∨ decode w = .ok .invk) ∧
  (t.detm ≠ s.detm → decode w = .ok .valk ∨ decode w = .ok .invk) ∧
  (t.sinv ≠ s.sinv → (∃ a, decode w = .ok (.modinv a)) ∨ decode w = .ok .invk) ∧
  (t.gcdr ≠ s.gcdr → (∃ a b, decode w = .ok (.gcd a b)) ∨ decode w = .ok .valk) ∧
  ((t.out0 ≠ s.out0 ∨ t.out1 ≠ s.out1) →
    (∃ a b, decode w = .ok (.mule a b)) ∨ (∃ a b, decode w = .ok (.muld a b))) ∧
  (t.earg ≠ s.earg → (Ready s ∧ ¬ Ready t) ∨ decode w = .ok .clre)

section
variable {w : Word} {s : State}

/-- A word that writes nothing but the status and `EARG` has only the last clause to meet. -/
theorem changesOnly_of_errorRecord {d : Data} {st : BitVec 12} {x : Data}
    (h : x ≠ s.earg → (Ready s ∧ ¬ Ready (answerWith d { s with status := st, earg := x })) ∨ decode w = .ok .clre) :
    ChangesOnlyItsRegisters w s (answerWith d { s with status := st, earg := x }) := by
  refine ⟨?_, ?_, ?_, ?_, ?_, ?_, ?_, h⟩ <;> simp

theorem changesOnly_answerWith (d : Data) : ChangesOnlyItsRegisters w s (answerWith d s) :=
  changesOnly_of_errorRecord fun h => absurd rfl h

theorem changesOnly_recordError (e : EngineError) (cmd : Word) (h : Ready s) :
    ChangesOnlyItsRegisters w s (answerWith 0 (recordError e cmd s)) := by
  have hp := not_ready_answerWith_recordError e cmd h
  rw [recordError_ready e cmd h] at hp ⊢
  exact changesOnly_of_errorRecord fun _ => .inl ⟨h, hp⟩

theorem changesOnly_of_effect {i : Instr} {t : State} (hd : decode w = .ok i) (he : Effect i s t) :
    ChangesOnlyItsRegisters w s t := by
  cases he with
  | refused => exact changesOnly_answerWith 0
  | raised e hr => exact changesOnly_recordError e _ hr
  | nop => exact changesOnly_answerWith 0
  | read => exact changesOnly_answerWith _
  | cleared hi => exact changesOnly_of_errorRecord fun _ => .inr (hi ▸ hd)
  | loaded a b c d hi => simp [ChangesOnlyItsRegisters, hd, hi]
  | det hi => simp [ChangesOnlyItsRegisters, hd, hi]
  | valk hi => simp [ChangesOnlyItsRegisters, hd, hi]
  | modinv a x hi => simp [ChangesOnlyItsRegisters, hd, hi]
  | gcd a b hi => simp [ChangesOnlyItsRegisters, hd, hi]
  | invk x hi => simp [ChangesOnlyItsRegisters, hd, hi]
  | mule v0 v1 hi => simp [ChangesOnlyItsRegisters, hd, hi]
  | muld v0 v1 hi => simp [ChangesOnlyItsRegisters, hd, hi]

end

/-- Settles O43, by the ways a word can end. -/
theorem registersChangeOnlyByTheirCommands : Obligations.RegistersChangeOnlyByTheirCommands := by
  intro w s t ht
  cases wordEffect_of_execWord ht with
  | command i _ hd he => exact changesOnly_of_effect hd he
  | illegalRefused => exact changesOnly_answerWith 0
  | illegalRaised _ _ hr => exact changesOnly_recordError _ w hr

/-- R21: no part of the state is read for `ID`. -/
theorem readReg_id (s : State) : readReg .id s = 0x0015B := rfl

/-- Settles O21. -/
theorem idIsHardwired : Obligations.IdIsHardwired :=
  ⟨by decide, by decide, by decide, by decide, fun s _ t => ⟨readReg_id s, fun _ => readReg_id t⟩⟩

/-- Settles O12: the registers as `State.reset` lists them, and the status bits and the zero determinant computed. -/
theorem resetValues : Obligations.ResetValues := by
  refine ⟨rfl, rfl, rfl, rfl, rfl, rfl, rfl, rfl, rfl, rfl, rfl, rfl, rfl, rfl, rfl, rfl, readReg_id _, ?_⟩
  decide

end Sys2Proof.Machine
end

section
/-! SUPPORT. R16 to R19: every way a word can change `STATUS`, and with it which words set and clear each field. -/

namespace Sys2Proof.Machine

/-- What the word `w`, executed from `s`, can do to `STATUS`. A word that keeps it is, without an error pending, none of the three
commands that write a flag. -/
inductive StatusEffect (w : Word) (s t : State) : Prop
  | kept (hst : t.status = s.status)
      (hw : Ready s → decode w ≠ .ok .valk ∧ decode w ≠ .ok .invk ∧ ∀ a b c d, decode w ≠ .ok (.ldk a b c d))
  | raised (e : EngineError) (hr : Ready s) (hst : t.status = statusSetError (errorCode e) (opField w) s.status)
      (hw : decode w ≠ .ok .valk)
  | cleared (hd : decode w = .ok .clre) (hst : t.status = statusSetError 0 0 s.status)
  | loaded (a b c d : Field) (hd : decode w = .ok (.ldk a b c d)) (hr : Ready s)
      (hst : t.status = statusSetIv false (statusSetKv false s.status))
  | validated (hd : decode w = .ok .valk) (hr : Ready s)
      (hst : t.status = statusSetKv (decide (Int.gcd (keyDet s % 27) 27 = 1)) s.status)
  | inverted (hd : decode w = .ok .invk) (hr : Ready s) (hst : t.status = statusSetIv true s.status)

theorem recordError_status (e : EngineError) (cmd : Word) {s : State} (h : Ready s) :
    (recordError e cmd s).status = statusSetError (errorCode e) (opField cmd) s.status := by
  rw [recordError_ready e cmd h]

theorem statusEffect_of_effect {w : Word} {i : Instr} {s t : State} (hd : decode w = .ok i) (he : Effect i s t) :
    StatusEffect w s t := by
  cases he with
  | refused hp => exact .kept rfl fun hr => absurd hr hp
  | raised e hr hc =>
    refine .raised e hr ?_ ?_
    · rw [answerWith_status, recordError_status _ _ hr, encode_of_decode hd]
    · rw [hd]; rintro ⟨⟩; exact hc
  | nop hi => exact .kept rfl fun _ => by simp [hd, hi]
  | read r reg hi => exact .kept rfl fun _ => by simp [hd, hi]
  | cleared hi => exact .cleared (hi ▸ hd) rfl
  | loaded a b c d hi hr => exact .loaded a b c d (hi ▸ hd) hr rfl
  | det hi => exact .kept rfl fun _ => by simp [hd, hi]
  | valk hi hr => exact .validated (hi ▸ hd) hr (by rw [answerWith_status, euclid_mod27]; rfl)
  | modinv a x hi => exact .kept rfl fun _ => by simp [hd, hi]
  | gcd a b hi => exact .kept rfl fun _ => by simp [hd, hi]
  | invk x hi hr => exact .inverted (hi ▸ hd) hr rfl
  | mule v0 v1 hi => exact .kept rfl fun _ => by simp [hd, hi]
  | muld v0 v1 hi => exact .kept rfl fun _ => by simp [hd, hi]

/-- The inversion: a word changes `STATUS` only in one of the ways `StatusEffect` lists. -/
theorem statusEffect_of_execWord {w : Word} {s t : State} (h : execWord w s = .next t) : StatusEffect w s t := by
  cases wordEffect_of_execWord h with
  | command i _ hd he => exact statusEffect_of_effect hd he
  | illegalRefused e hd hp => exact .kept rfl fun hr => absurd hr hp
  | illegalRaised e hd hr => exact .raised _ hr (recordError_status _ w hr) (by simp [hd])

/-- No error's code is 0, so a recorded error is pending. -/
theorem not_ready_of_status_setError {e : EngineError} {eop : BitVec 4} {st : BitVec 12} {t : State}
    (h : t.status = statusSetError (errorCode e) eop st) : ¬ Ready t := by
  rw [ready_iff, h, statusErr_setError]
  exact errorCode_ne_zero e

/-- The 20 bits of `RDR STATUS` hold `STATUS` at its own places, with zeros above it. -/
theorem extract_zeroExtend_status (st : BitVec 12) (k n : Nat) :
    (st.zeroExtend 20).extractLsb' k n = st.extractLsb' k n := by
  apply BitVec.eq_of_getLsbD_eq
  intro i hi
  rw [BitVec.getLsbD_extractLsb', BitVec.getLsbD_extractLsb', BitVec.getLsbD_setWidth]
  by_cases h : k + i < 20
  · simp [h]
  · simp [h, BitVec.getLsbD_of_ge st (k + i) (by omega)]

theorem responds_rdr_status (s : State) :
    ∃ t, exec (.rdr 14) s = .next t ∧ Responds s t (s.status.zeroExtend 20) := by
  obtain ⟨t, ht, -, hresp⟩ := respond_spec (readReg .status s) s s rfl
  exact ⟨t, ht, hresp⟩

section
variable {w : Word} {s t : State}

/-- R16: `ERR` is set by an error raised with none pending and cleared by `CLRE`. -/
theorem err_changes (h : StatusEffect w s t) (hne : statusErr t.status ≠ statusErr s.status) :
    (Ready s ∧ ¬ Ready t) ∨ (decode w = .ok .clre ∧ Ready t) := by
  cases h with
  | kept hst => exact absurd (congrArg statusErr hst) hne
  | raised e hr hst => exact .inl ⟨hr, not_ready_of_status_setError hst⟩
  | cleared hd hst => exact .inr ⟨hd, by rw [ready_iff, hst, statusErr_setError]; rfl⟩
  | loaded a b c d hd hr hst => simp [hst] at hne
  | validated hd hr hst => simp [hst] at hne
  | inverted hd hr hst => simp [hst] at hne

/-- R17: `KV` is written by `VALK`, and cleared by `LDK`. -/
theorem kv_changes (h : StatusEffect w s t) (hne : statusKv t.status ≠ statusKv s.status) :
    decode w = .ok .valk ∨ ((∃ a b c d, decode w = .ok (.ldk a b c d)) ∧ ¬ KeyValidated t) := by
  cases h with
  | kept hst => exact absurd (congrArg statusKv hst) hne
  | raised e hr hst => simp [hst] at hne
  | cleared hd hst => simp [hst] at hne
  | loaded a b c d hd hr hst => exact .inr ⟨⟨a, b, c, d, hd⟩, by simp [keyValidated_iff, hst]⟩
  | validated hd => exact .inl hd
  | inverted hd hr hst => simp [hst] at hne

/-- R18: `IV` is set by `INVK` and cleared by `LDK`. -/
theorem iv_changes (h : StatusEffect w s t) (hne : statusIv t.status ≠ statusIv s.status) :
    (decode w = .ok .invk ∧ InverseValid t) ∨ ((∃ a b c d, decode w = .ok (.ldk a b c d)) ∧ ¬ InverseValid t) := by
  cases h with
  | kept hst => exact absurd (congrArg statusIv hst) hne
  | raised e hr hst => simp [hst] at hne
  | cleared hd hst => simp [hst] at hne
  | loaded a b c d hd hr hst => exact .inr ⟨⟨a, b, c, d, hd⟩, by simp [inverseValid_iff, hst]⟩
  | validated hd hr hst => simp [hst] at hne
  | inverted hd hr hst => exact .inl ⟨hd, by simp [inverseValid_iff, hst]⟩

/-- R19: bits 7:6 are written by no word. -/
theorem zero_bits_kept (h : StatusEffect w s t) : t.status.extractLsb' 6 2 = s.status.extractLsb' 6 2 := by
  cases h with
  | kept hst => rw [hst]
  | raised e hr hst => rw [hst, setError_bits _ _ _ 6 2 (by omega)]
  | cleared hd hst => rw [hst, setError_bits _ _ _ 6 2 (by omega)]
  | loaded a b c d hd hr hst => rw [hst, setIv_bits _ _ 6 2 (by omega), setKv_bits _ _ 6 2 (by omega)]
  | validated hd hr hst => rw [hst, setKv_bits _ _ 6 2 (by omega)]
  | inverted hd hr hst => rw [hst, setIv_bits _ _ 6 2 (by omega)]

/-- R19: `EOP` is the opcode of the word that raised the error, and 0 after `CLRE`. -/
theorem eop_changes (h : StatusEffect w s t) (hne : statusEop t.status ≠ statusEop s.status) :
    (Ready s ∧ ¬ Ready t ∧ statusEop t.status = opField w) ∨ (decode w = .ok .clre ∧ statusEop t.status = 0#4) := by
  cases h with
  | kept hst => exact absurd (congrArg statusEop hst) hne
  | raised e hr hst => exact .inl ⟨hr, not_ready_of_status_setError hst, by rw [hst, statusEop_setError]⟩
  | cleared hd hst => exact .inr ⟨hd, by rw [hst, statusEop_setError]; rfl⟩
  | loaded a b c d hd hr hst => simp [hst] at hne
  | validated hd hr hst => simp [hst] at hne
  | inverted hd hr hst => simp [hst] at hne

end

theorem statusKv_ne_of_not_iff {s t : State} (h : ¬ (KeyValidated t ↔ KeyValidated s)) :
    statusKv t.status ≠ statusKv s.status := fun he => h (by rw [keyValidated_iff, keyValidated_iff, he])

theorem statusIv_ne_of_not_iff {s t : State} (h : ¬ (InverseValid t ↔ InverseValid s)) :
    statusIv t.status ≠ statusIv s.status := fun he => h (by rw [inverseValid_iff, inverseValid_iff, he])

/-- Settles O44: the layout field by field, and each field's writers. -/
theorem statusFieldsChangeOnlyAsStated : Obligations.StatusFieldsChangeOnlyAsStated := by
  refine ⟨fun s hz => ?_, fun w s t ht => ?_, rfl⟩
  · obtain ⟨t, ht, hresp⟩ := responds_rdr_status s
    have hbit (k : Nat) (hk : k < 20) : (s.status.zeroExtend 20).getLsbD k = s.status.getLsbD k := by
      rw [BitVec.getLsbD_setWidth, decide_eq_true hk, Bool.true_and]
    refine ⟨t, _, ht, hresp, ?_, hbit 4 (by omega), hbit 5 (by omega), ?_, ?_, ?_⟩
    · exact extract_zeroExtend_status _ 0 4
    · exact (extract_zeroExtend_status _ 6 2).trans hz
    · exact extract_zeroExtend_status _ 8 4
    · rw [extract_zeroExtend_status]
      exact BitVec.eq_of_getLsbD_eq fun i hi => by simp [BitVec.getLsbD_extractLsb', BitVec.getLsbD_of_ge]
  · have he := statusEffect_of_execWord ht
    refine ⟨err_changes he, fun hs ht => ?_, fun hs ht => ?_, fun hs ht => ?_, fun hs ht => ?_, zero_bits_kept he,
      eop_changes he⟩
    · obtain hv | ⟨-, hk⟩ := kv_changes he (statusKv_ne_of_not_iff (by tauto))
      · exact hv
      · exact absurd ht hk
    · exact (kv_changes he (statusKv_ne_of_not_iff (by tauto))).imp_right And.left
    · obtain ⟨hi, -⟩ | ⟨-, hk⟩ := iv_changes he (statusIv_ne_of_not_iff (by tauto))
      · exact hi
      · exact absurd ht hk
    · obtain ⟨-, hk⟩ | ⟨hl, -⟩ := iv_changes he (statusIv_ne_of_not_iff (by tauto))
      · exact absurd hk ht
      · exact hl

end Sys2Proof.Machine
end

section
/-! SUPPORT. R17, R18: the flags over whole histories. A flag that one command sets, that a successful `LDK` clears and that every
other word keeps is 1 exactly when the command has set it and no key was loaded since. -/

namespace Sys2Proof.Machine

/-- The word is an `LDK` that executes successfully. -/
def LoadsKey (w : Word) (s t : State) : Prop := (∃ a b c d, decode w = .ok (.ldk a b c d)) ∧ Ready s ∧ Ready t

/-- Some command `i` of these words, run from `s`, ended as `Q` says, and no `LDK` executed successfully after it. -/
def SetThenKept (i : Instr) (Q : State → State → Prop) (ws : List Word) (s : State) : Prop :=
  ∃ xs ys u v, ws = xs ++ encode i :: ys ∧ runCommands xs s = .next u ∧ exec i u = .next v ∧ Q u v ∧ NoKeyLoaded ys v

theorem next_inj {s t : State} (h : (.next s : Host.Outcome State Fault Refusal) = .next t) : s = t := by
  injection h

section
variable {w : Word} {s v : State}

theorem noKeyLoaded_nil (s : State) : NoKeyLoaded [] s := by
  intro xs w ys u v _ _ _ _ h
  simp at h

/-- The first word loads no key, and then none of the rest does from the state after it. -/
theorem noKeyLoaded_cons (hv : execWord w s = .next v) (ws : List Word) :
    NoKeyLoaded (w :: ws) s ↔ ¬ LoadsKey w s v ∧ NoKeyLoaded ws v := by
  constructor
  · refine fun h => ⟨?_, ?_⟩
    · rintro ⟨⟨a, b, c, d, hd⟩, hs, hvr⟩
      exact h [] w ws s v a b c d rfl rfl hv hd hs hvr
    · intro xs x ys u t a b c d hws hxs
      exact h (w :: xs) x ys u t a b c d (by rw [hws]; rfl) (by rw [runCommands_cons hv, hxs])
  · rintro ⟨hw, hrest⟩ xs x ys u t a b c d hws hxs hx hd hu ht
    cases xs with
    | nil =>
      cases hws
      cases hxs
      cases next_inj (hv.symm.trans hx)
      exact hw ⟨⟨a, b, c, d, hd⟩, hu, ht⟩
    | cons y xs =>
      cases hws
      rw [runCommands_cons hv] at hxs
      exact hrest xs x ys u t a b c d rfl hxs hx hd hu ht

theorem setThenKept_nil (i : Instr) (Q : State → State → Prop) (s : State) : ¬ SetThenKept i Q [] s := by
  rintro ⟨xs, ys, u, v, h, -⟩
  simp at h

/-- The first word is the one that set the flag, or one of the rest is. -/
theorem setThenKept_cons {i : Instr} (hi : decode (encode i) = .ok i) (Q : State → State → Prop)
    (hv : execWord w s = .next v) (ws : List Word) :
    SetThenKept i Q (w :: ws) s ↔ (decode w = .ok i ∧ Q s v ∧ NoKeyLoaded ws v) ∨ SetThenKept i Q ws v := by
  constructor
  · rintro ⟨xs, ys, u, t, hws, hxs, hx, hq, hk⟩
    cases xs with
    | nil =>
      cases hws
      cases hxs
      rw [execWord_of_decode hi] at hv
      cases next_inj (hv.symm.trans hx)
      exact .inl ⟨hi, hq, hk⟩
    | cons y xs =>
      cases hws
      rw [runCommands_cons hv] at hxs
      exact .inr ⟨xs, ys, u, t, rfl, hxs, hx, hq, hk⟩
  · rintro (⟨hd, hq, hk⟩ | ⟨xs, ys, u, t, rfl, hxs, hx, hq, hk⟩)
    · rw [execWord_of_decode hd] at hv
      exact ⟨[], ws, s, v, by rw [encode_of_decode hd]; rfl, rfl, hv, hq, hk⟩
    · exact ⟨w :: xs, ys, u, t, rfl, by rw [runCommands_cons hv, hxs], hx, hq, hk⟩

end

/-- If one word, from any state that meets the invariant, leaves the flag `P` at 1 exactly when it is the command `i` and ended as `Q`
says, or `P` was 1 and the word loaded no key, then the flag records the history. -/
theorem flag_iff_history {P : State → Prop} {i : Instr} {Q : State → State → Prop} (hi : decode (encode i) = .ok i)
    (hstep : ∀ w s t, EngineInv s → execWord w s = .next t →
      (P t ↔ (decode w = .ok i ∧ Q s t) ∨ (P s ∧ ¬ LoadsKey w s t)))
    (ws : List Word) {s t : State} (hs : EngineInv s) (ht : runCommands ws s = .next t) :
    P t ↔ (P s ∧ NoKeyLoaded ws s) ∨ SetThenKept i Q ws s := by
  induction ws generalizing s with
  | nil =>
    cases ht
    simp [noKeyLoaded_nil, setThenKept_nil]
  | cons w ws ih =>
    obtain ⟨v, hv, -⟩ := execWord_effect w s
    rw [runCommands_cons hv] at ht
    rw [ih (execWord_keeps_engineInv hs hv) ht, hstep w s v hs hv, noKeyLoaded_cons hv, setThenKept_cons hi Q hv,
      or_and_right, and_assoc, and_assoc, or_assoc, or_left_comm]

/-- A response has one `DATA` field. -/
theorem responds_unique {s t : State} {d e : Data} (hd : Responds s t d) (he : Responds s t e) : d = e := by
  obtain ⟨w, hw, -, -, -, -, rfl⟩ := hd
  obtain ⟨x, hx, -, -, -, -, rfl⟩ := he
  have hwx : w = x := by simpa using hw.symm.trans hx
  rw [hwx]

/-- R87 with no error pending: what `VALK` answers, and the `KV` it writes. -/
theorem exec_valk_ready {s t : State} (hr : Ready s) (h : exec .valk s = .next t) :
    Responds s t (if euclid (mod27 (keyDeterminant s)) 27 = 1 then 1 else 0) ∧
      t.status = statusSetKv (decide (euclid (mod27 (keyDeterminant s)) 27 = 1)) s.status := by
  cases next_inj ((gated_ready s _ hr).symm.trans h)
  exact ⟨responds_answerWith _ s _ rfl, rfl⟩

/-- R87: `VALK` answers 1 exactly when it was not refused and `KV` is 1 after it. -/
theorem valk_responds_one_iff {s t : State} (h : exec .valk s = .next t) :
    Responds s t 1 ↔ Ready s ∧ KeyValidated t := by
  by_cases hr : Ready s
  · obtain ⟨hresp, hst⟩ := exec_valk_ready hr h
    rw [keyValidated_iff, hst, statusKv_setKv, decide_eq_true_iff]
    split_ifs at hresp with hg
    · exact ⟨fun _ => ⟨hr, hg⟩, fun _ => hresp⟩
    · exact ⟨fun h1 => absurd (responds_unique h1 hresp) (by decide), fun h1 => absurd h1.2 hg⟩
  · obtain ⟨u, hu, -, hresp⟩ := gated_pending s _ hr
    cases next_inj (hu.symm.trans h)
    exact ⟨fun h1 => absurd (responds_unique h1 hresp) (by decide), fun h1 => absurd h1.1 hr⟩

section
variable {w : Word} {s t : State}

/-- R17 for one word: `VALK` sets `KV`, or it was 1 and no key was loaded. A later `VALK` finds the key still valid, by the
invariant. -/
theorem keyValidated_step (hs : EngineInv s) (ht : execWord w s = .next t) :
    KeyValidated t ↔ (decode w = .ok .valk ∧ Responds s t 1) ∨ (KeyValidated s ∧ ¬ LoadsKey w s t) := by
  have hresp (hd : decode w = .ok .valk) : Responds s t 1 ↔ Ready s ∧ KeyValidated t :=
    valk_responds_one_iff (execWord_of_decode hd s ▸ ht)
  rw [and_congr_right hresp]
  cases statusEffect_of_execWord ht with
  | kept hst hw =>
    have hl : ¬ LoadsKey w s t := fun ⟨⟨a, b, c, d, hd⟩, hr, _⟩ => (hw hr).2.2 a b c d hd
    simp [hl, keyValidated_iff, hst]
  | raised e hr hst hw =>
    have hl : ¬ LoadsKey w s t := fun h => not_ready_of_status_setError hst h.2.2
    simp [hw, hl, keyValidated_iff, hst]
  | cleared hd hst => simp [LoadsKey, hd, keyValidated_iff, hst]
  | loaded a b c d hd hr hst =>
    have hl : LoadsKey w s t := ⟨⟨a, b, c, d, hd⟩, hr, by rw [ready_iff, hst]; simpa [ready_iff] using hr⟩
    simp [hl, hd, keyValidated_iff, hst]
  | validated hd hr hst =>
    have hkeep (hk : KeyValidated s) : KeyValidated t := by
      have hg := ((engineInv_iff s).1 hs).kv_sound hk
      rw [keyValidated_iff, hst, statusKv_setKv]
      exact decide_eq_true hg
    exact ⟨fun hk => .inl ⟨hd, hr, hk⟩, fun h => h.elim (fun hv => hv.2.2) fun hk => hkeep hk.1⟩
  | inverted hd hr hst => simp [LoadsKey, hd, keyValidated_iff, hst]

/-- R18 for one word: `INVK` sets `IV`, or it was 1 and no key was loaded. -/
theorem inverseValid_step (ht : execWord w s = .next t) :
    InverseValid t ↔ (decode w = .ok .invk ∧ Ready s ∧ Ready t) ∨ (InverseValid s ∧ ¬ LoadsKey w s t) := by
  cases statusEffect_of_execWord ht with
  | kept hst hw =>
    have hl : ¬ LoadsKey w s t := fun ⟨⟨a, b, c, d, hd⟩, hr, _⟩ => (hw hr).2.2 a b c d hd
    have hv : ¬ (decode w = .ok .invk ∧ Ready s ∧ Ready t) := fun ⟨hd, hr, _⟩ => (hw hr).2.1 hd
    simp only [hv, hl, inverseValid_iff, hst, false_or, not_false_eq_true, and_true]
  | raised e hr hst hw =>
    have hp := not_ready_of_status_setError hst
    have hl : ¬ LoadsKey w s t := fun h => hp h.2.2
    simp [hp, hl, inverseValid_iff, hst]
  | cleared hd hst => simp [LoadsKey, hd, inverseValid_iff, hst]
  | loaded a b c d hd hr hst =>
    have hl : LoadsKey w s t := ⟨⟨a, b, c, d, hd⟩, hr, by rw [ready_iff, hst]; simpa [ready_iff] using hr⟩
    simp [hl, hd, inverseValid_iff, hst]
  | validated hd hr hst => simp [LoadsKey, hd, inverseValid_iff, hst]
  | inverted hd hr hst =>
    have ht : Ready t := by rw [ready_iff, hst]; simpa [ready_iff] using hr
    exact ⟨fun _ => .inl ⟨hd, hr, ht⟩, fun _ => by rw [inverseValid_iff, hst, statusIv_setIv]⟩

end

theorem decode_encode_valk : decode (encode .valk) = .ok .valk := by decide

theorem decode_encode_invk : decode (encode .invk) = .ok .invk := by decide

/-- Settles O46: both flags are 0 at reset, so each is 1 exactly when its command set it and no key was loaded since. -/
theorem flagsRecordTheHistory : Obligations.FlagsRecordTheHistory := by
  intro ws t ht
  have hkv := flag_iff_history decode_encode_valk (fun w s t => keyValidated_step) ws resetMeetsTheInvariant ht
  have hiv := flag_iff_history decode_encode_invk (fun w s t _ => inverseValid_step) ws resetMeetsTheInvariant ht
  have hk0 : ¬ KeyValidated State.reset := by decide
  have hi0 : ¬ InverseValid State.reset := by decide
  simp only [hk0, hi0, false_and, false_or, SetThenKept, and_assoc] at hkv hiv
  exact ⟨hkv, hiv⟩

end Sys2Proof.Machine
end

section
/-! SUPPORT. R33, R53: every word is answered once. One lemma over the ways a command ends gives its one response, and the equations of
a step by the host's next event say that no step stops. -/

namespace Sys2Proof.Machine

/-- Every way a command ends is one response over writes that touch neither list of the host. -/
theorem answerWith_of_effect {i : Instr} {s t : State} (he : Effect i s t) :
    ∃ d s', t = answerWith d s' ∧ s'.responses = s.responses ∧ s'.inputs = s.inputs := by
  cases he with
  | raised e => exact ⟨0, _, rfl, recordError_responses .., recordError_inputs ..⟩
  | _ => exact ⟨_, _, rfl, rfl, rfl⟩

theorem answerWith_of_wordEffect {w : Word} {s t : State} (he : WordEffect w s t) :
    ∃ d s', t = answerWith d s' ∧ s'.responses = s.responses ∧ s'.inputs = s.inputs := by
  cases he with
  | command i _ _ he => exact answerWith_of_effect he
  | illegalRefused => exact ⟨0, s, rfl, rfl, rfl⟩
  | illegalRaised => exact ⟨0, _, rfl, recordError_responses .., recordError_inputs ..⟩

/-- R33, R119: a word is answered by exactly one response, and the host's events stay lined up. -/
theorem execWord_responds (w : Word) (s : State) :
    ∃ t d, execWord w s = .next t ∧ Responds s t d ∧ t.inputs = s.inputs := by
  obtain ⟨t, ht, he⟩ := execWord_effect w s
  obtain ⟨d, s', rfl, hresp, hin⟩ := answerWith_of_wordEffect he
  exact ⟨_, d, ht, responds_answerWith d s s' hresp, hin⟩

/-! A step, by the host's next event. -/

section
variable {s : State} {rest : List HostInput}

theorem step_of_no_input (h : s.inputs = []) : step s = .next s := by
  simp only [step, stepEngine, takeInput, h]

theorem step_of_command {w : Word} (h : s.inputs = .command w :: rest) : step s = execWord w (withInputs rest s) := by
  simp only [step, stepEngine, takeInput, h]

theorem step_of_reset (h : s.inputs = .reset :: rest) : step s = .next (takeReset (withInputs rest s)) := by
  simp only [step, stepEngine, takeInput, h]

end

/-- R119: nothing stops the machine. -/
theorem step_next (s : State) : ∃ t, step s = .next t := by
  match hin : s.inputs with
  | [] => exact ⟨s, step_of_no_input hin⟩
  | .command w :: rest =>
    obtain ⟨t, -, ht, -⟩ := execWord_responds w (withInputs rest s)
    exact ⟨t, (step_of_command hin).trans ht⟩
  | .reset :: rest => exact ⟨_, step_of_reset hin⟩

/-- Settles O11. -/
theorem everyWordIsAnsweredOnce : Obligations.EveryWordIsAnsweredOnce := ⟨execWord_responds, step_next⟩

end Sys2Proof.Machine
end

section
/-! SUPPORT. R44: a block multiply that succeeds answers a function of its matrix and its block, and leaves the flags and both matrices
to the next one. -/

namespace Sys2Proof.Machine

/-- The `DATA` of a block multiply by `[[a, b], [c, d]]` (R100, R101). -/
def blockData (a b c d v0 v1 : Field) : Data :=
  0#10 ++ toField (rowProduct c d v0 v1) ++ toField (rowProduct a b v0 v1)

/-- The state after a block multiply by `[[a, b], [c, d]]`, its response delivered. -/
def multiplied (a b c d v0 v1 : Field) (s : State) : State :=
  answerWith (blockData a b c d v0 v1)
    { s with out0 := toField (rowProduct a b v0 v1), out1 := toField (rowProduct c d v0 v1) }

theorem multiplyBlock_eq (a b c d v0 v1 : Field) (s : State) :
    multiplyBlock a b c d v0 v1 s = .next (multiplied a b c d v0 v1 s) := rfl

theorem responds_multiplied (a b c d v0 v1 : Field) (s : State) :
    Responds s (multiplied a b c d v0 v1 s) (blockData a b c d v0 v1) :=
  responds_answerWith _ s _ rfl

section
variable {v0 v1 : Field} {s : State} (hr : Ready s) (hv : v0.toNat ≤ 26 ∧ v1.toNat ≤ 26)
include hr hv

/-- R100 where nothing is raised. -/
theorem exec_mule_of_ready (hk : KeyValidated s) :
    exec (.mule v0 v1) s = .next (multiplied s.k00 s.k01 s.k10 s.k11 v0 v1 s) := by
  rw [exec, execMule, gated_ready s _ hr, if_pos ((keyValidated_iff s).1 hk), if_pos (by simpa [isValue_iff] using hv),
    multiplyBlock_eq]

/-- R101 where nothing is raised. -/
theorem exec_muld_of_ready (hi : InverseValid s) :
    exec (.muld v0 v1) s = .next (multiplied s.i00 s.i01 s.i10 s.i11 v0 v1 s) := by
  rw [exec, execMuld, gated_ready s _ hr, if_pos ((inverseValid_iff s).1 hi), if_pos (by simpa [isValue_iff] using hv),
    multiplyBlock_eq]

/-! After a block multiply of another caller the flags and the matrix are those before it. -/

theorem exec_mule_after_multiplied (a b c d w0 w1 : Field) (hk : KeyValidated s) :
    exec (.mule v0 v1) (multiplied a b c d w0 w1 s) =
      .next (multiplied s.k00 s.k01 s.k10 s.k11 v0 v1 (multiplied a b c d w0 w1 s)) :=
  exec_mule_of_ready (s := multiplied a b c d w0 w1 s) hr hv hk

theorem exec_muld_after_multiplied (a b c d w0 w1 : Field) (hi : InverseValid s) :
    exec (.muld v0 v1) (multiplied a b c d w0 w1 s) =
      .next (multiplied s.i00 s.i01 s.i10 s.i11 v0 v1 (multiplied a b c d w0 w1 s)) :=
  exec_muld_of_ready (s := multiplied a b c d w0 w1 s) hr hv hi

end

/-- Settles O36: the data is `blockData` of the matrix and the block, before another caller's block multiply and after it. -/
theorem callersBlocksDoNotInterfere : Obligations.CallersBlocksDoNotInterfere := by
  refine ⟨?_, ?_, ?_⟩
  · intro v0 v1 s s' h00 h01 h10 h11 hr hr' hk hk' hv0 hv1
    have hs' := exec_mule_of_ready hr' ⟨hv0, hv1⟩ hk'
    rw [← h00, ← h01, ← h10, ← h11] at hs'
    exact ⟨_, _, _, exec_mule_of_ready hr ⟨hv0, hv1⟩ hk, hs', responds_multiplied .., responds_multiplied ..⟩
  · intro v0 v1 s s' h00 h01 h10 h11 hr hr' hi hi' hv0 hv1
    have hs' := exec_muld_of_ready hr' ⟨hv0, hv1⟩ hi'
    rw [← h00, ← h01, ← h10, ← h11] at hs'
    exact ⟨_, _, _, exec_muld_of_ready hr ⟨hv0, hv1⟩ hi, hs', responds_multiplied .., responds_multiplied ..⟩
  · intro v0 v1 c0 c1 s hr hk hi hv0 hv1 hc0 hc1
    exact ⟨_, _, _, _, _, _, exec_mule_of_ready hr ⟨hv0, hv1⟩ hk,
      exec_muld_after_multiplied hr ⟨hc0, hc1⟩ _ _ _ _ _ _ hi, exec_muld_of_ready hr ⟨hc0, hc1⟩ hi,
      exec_mule_after_multiplied hr ⟨hv0, hv1⟩ _ _ _ _ _ _ hk, responds_multiplied .., responds_multiplied ..,
      responds_multiplied .., responds_multiplied ..⟩

end Sys2Proof.Machine
end

section
/-! SUPPORT. R31 to R33: the handshake. What the ports drive names the phase, each edge that accepts, holds or delivers has its equation,
and the words and responses that pass the ports over any edges are those of a run. -/

namespace Sys2Proof.Machine

/-! The phase behind what the ports drive. -/

theorem cmdReady_iff (p : Port) : (portOut p).cmdReady = true ↔ p.phase = .idle := by
  unfold portOut
  cases p.phase <;> simp

theorem rsp_eq_some_iff (p : Port) (r : Word) : (portOut p).rsp = some r ↔ p.phase = .offering r := by
  unfold portOut
  cases p.phase <;> simp

/-- R32: when a word is accepted, and which. -/
theorem portAccepts_eq_some_iff (i : PortIn) (p : Port) (w : Word) : portAccepts i p = some w ↔
    i.rst = false ∧ i.cmdValid = true ∧ (portOut p).cmdReady = true ∧ w = i.cmdData := by
  simp [portAccepts, and_assoc, eq_comm (a := w)]

section
variable {i : PortIn} {p : Port}

theorem portAccepts_of_not_ready (h : (portOut p).cmdReady = false) : portAccepts i p = none := by
  simp [portAccepts, h]

theorem portDelivers_of_no_rsp (h : (portOut p).rsp = none) : portDelivers i p = none := by
  simp [portDelivers, h]

/-- An edge that accepts a word starts the command, with a latency drawn for it. -/
theorem portEdge_of_accepts {w : Word} (h : portAccepts i p = some w) :
    portEdge i p = { p with
      phase := .busy w (Config.extraLatency p.drawn w (registerContents p.engine)), drawn := p.drawn + 1 } := by
  obtain ⟨hrst, -, hready, -⟩ := (portAccepts_eq_some_iff i p w).1 h
  have hp := (cmdReady_iff p).1 hready
  simp [portEdge, hrst, hp, h]

/-- R33: a response that the host does not accept stays on offer. -/
theorem portEdge_of_held {r : Word} (hrst : i.rst = false) (hr : (portOut p).rsp = some r) (hn : i.rspReady = false) :
    portEdge i p = p := by
  simp [portEdge, portDelivers, hrst, hn, (rsp_eq_some_iff p r).1 hr]

theorem portDelivers_of_rspReady {r : Word} (hrst : i.rst = false) (hr : (portOut p).rsp = some r)
    (hy : i.rspReady = true) : portDelivers i p = some r := by
  simp [portDelivers, hrst, hy, hr]

/-- An edge that delivers the response makes the engine ready again (log entry 10). -/
theorem portEdge_of_delivers {r : Word} (hrst : i.rst = false) (hr : (portOut p).rsp = some r) (hy : i.rspReady = true) :
    portEdge i p = { p with phase := .idle } := by
  have hd := portDelivers_of_rspReady hrst hr hy
  simp [portEdge, hrst, hd, (rsp_eq_some_iff p r).1 hr]

end

/-- Settles O48: each clause by the phase the ports show and the equation of the edge. -/
theorem handshakeHoldsOneCommand : Obligations.HandshakeHoldsOneCommand := by
  refine ⟨portAccepts_eq_some_iff, fun p hp => ?_, fun i p r => portEdge_of_held, fun i p r hrst hr hy => ?_,
    fun i p w hw => ?_⟩
  · rw [cmdReady_iff] at hp
    simp [portPending, portOffered, portOut, hp]
  · rw [portEdge_of_delivers hrst hr hy]
    exact ⟨portDelivers_of_rspReady hrst hr hy, rfl, rfl⟩
  · rw [portEdge_of_accepts hw]
    exact ⟨rfl, rfl, rfl⟩

/-! A command seen from the host. -/

theorem execWord_eq_answer (w : Word) (s : State) : execWord w s = .next (answer w s).2 := by
  obtain ⟨t, ht, -⟩ := execWord_effect w s
  simp only [answer, ht]

/-- R33: the response word of `answer` is the one that was delivered. -/
theorem answer_responses (w : Word) (s : State) : (answer w s).2.responses = s.responses ++ [(answer w s).1] := by
  obtain ⟨t, d, ht, ⟨r, hr, -⟩, -⟩ := execWord_responds w s
  simp [answer, ht, hr]

theorem runCommands_append {xs : List Word} {s t : State} (h : runCommands xs s = .next t) (ys : List Word) :
    runCommands (xs ++ ys) s = runCommands ys t := by
  induction xs generalizing s with
  | nil => cases h; rfl
  | cons w xs ih =>
    rw [runCommands_cons (execWord_eq_answer w s)] at h
    rw [List.cons_append, runCommands_cons (execWord_eq_answer w s), ih h]

/-! The refinement. -/

/-- From the port `p` to the port `q`, while the words `accepted` and the responses `delivered` passed, the engine ran some words and
delivered their responses: the words it ran, with the one `q` still holds, are the one `p` held and those accepted, and the responses
given, after the one on offer at `p`, are those delivered and the one on offer at `q`. -/
def RunsBetween (p q : Port) (accepted delivered : List Word) : Prop :=
  ∃ ws rs, ws ++ portPending q = portPending p ++ accepted ∧ runCommands ws p.engine = .next q.engine ∧
    q.engine.responses = p.engine.responses ++ rs ∧ portOffered p ++ rs = delivered ++ portOffered q

/-- Nothing was executed. -/
theorem runsBetween_of_same_engine {p q : Port} {acc del : List Word} (he : q.engine = p.engine)
    (hacc : portPending q = portPending p ++ acc) (hdel : portOffered p = del ++ portOffered q) : RunsBetween p q acc del :=
  ⟨[], [], hacc, by rw [he]; rfl, by rw [he, List.append_nil], by rw [List.append_nil, hdel]⟩

theorem runsBetween_refl (p : Port) : RunsBetween p p [] [] :=
  runsBetween_of_same_engine rfl (List.append_nil _).symm rfl

theorem RunsBetween.trans {p q r : Port} {acc acc' del del' : List Word} (h : RunsBetween p q acc del)
    (h' : RunsBetween q r acc' del') : RunsBetween p r (acc ++ acc') (del ++ del') := by
  obtain ⟨ws, rs, hacc, hrun, hresp, hdel⟩ := h
  obtain ⟨ws', rs', hacc', hrun', hresp', hdel'⟩ := h'
  refine ⟨ws ++ ws', rs ++ rs', ?_, ?_, ?_, ?_⟩
  · rw [List.append_assoc, hacc', ← List.append_assoc, hacc, List.append_assoc]
  · rw [runCommands_append hrun, hrun']
  · rw [hresp', hresp, List.append_assoc]
  · rw [← List.append_assoc, hdel, List.append_assoc, hdel', List.append_assoc]

/-- One edge without `rst`, by the phase it finds: only the last edge of a latency executes a word. -/
theorem runsBetween_portEdge {i : PortIn} (hrst : i.rst = false) (p : Port) :
    RunsBetween p (portEdge i p) (portAccepts i p).toList (portDelivers i p).toList := by
  obtain ⟨rst, cmdValid, cmdData, rspReady⟩ := i
  cases hrst
  obtain ⟨s, phase, n⟩ := p
  cases phase with
  | starting left =>
    rw [portAccepts_of_not_ready (by rfl), portDelivers_of_no_rsp (by rfl)]
    cases left with
    | zero => exact runsBetween_of_same_engine rfl rfl rfl
    | succ left => exact runsBetween_of_same_engine rfl rfl rfl
  | idle =>
    rw [portDelivers_of_no_rsp (by rfl)]
    cases cmdValid with
    | false => exact runsBetween_refl _
    | true => exact runsBetween_of_same_engine rfl rfl rfl
  | busy cmd left =>
    rw [portAccepts_of_not_ready (by rfl), portDelivers_of_no_rsp (by rfl)]
    cases left with
    | zero =>
      exact ⟨[cmd], [(answer cmd s).1], rfl, runCommands_cons (execWord_eq_answer cmd s) [], answer_responses cmd s, rfl⟩
    | succ left => exact runsBetween_of_same_engine rfl rfl rfl
  | offering r =>
    rw [portAccepts_of_not_ready (by rfl)]
    cases rspReady with
    | false => exact runsBetween_refl _
    | true => exact runsBetween_of_same_engine rfl rfl rfl

theorem runsBetween_portRun (is : List PortIn) (hrst : ∀ i ∈ is, i.rst = false) (p : Port) :
    RunsBetween p (portRun is p) (portAccepted is p) (portDelivered is p) := by
  induction is generalizing p with
  | nil => exact runsBetween_refl p
  | cons i is ih =>
    obtain ⟨hi, his⟩ := List.forall_mem_cons.1 hrst
    exact (runsBetween_portEdge hi p).trans (ih his (portEdge i p))

/-- Settles O49: an idle engine holds no word and offers no response. -/
theorem handshakeRefinesARun : Obligations.HandshakeRefinesARun := by
  intro is s n hrst p
  obtain ⟨ws, rs, hacc, hrun, hresp, hdel⟩ := runsBetween_portRun is hrst p
  have hrs : rs = portDelivered is p ++ portOffered (portRun is p) := hdel
  exact ⟨ws, hacc, hrun, by rw [hresp, hrs, List.append_assoc]⟩

end Sys2Proof.Machine
end

section
/-! SUPPORT. R35: the byte order of a stored word. -/

namespace Sys2Proof

/-- The four bytes, the last one highest, are the word. -/
theorem append_bytes (w : Word) :
    w.extractLsb' 24 8 ++ w.extractLsb' 16 8 ++ w.extractLsb' 8 8 ++ w.extractLsb' 0 8 = w := by
  rw [BitVec.extractLsb'_append_extractLsb'_eq_extractLsb' (start₁ := 16) (len₁ := 8) rfl,
    BitVec.extractLsb'_append_extractLsb'_eq_extractLsb' (start₁ := 8) (len₁ := 8) rfl,
    BitVec.extractLsb'_append_extractLsb'_eq_extractLsb' (start₁ := 0) (len₁ := 8) rfl]
  exact BitVec.extractLsb'_eq_self

/-- R35: the first four bytes are decoded as the word they store, and the rest is left. -/
theorem decodeBytes_bytesOfWord (w : Word) (rest : List Byte) :
    decodeBytes (bytesOfWord w ++ rest) = (decode w).map (·, rest) := by
  simp only [bytesOfWord, List.cons_append, List.nil_append, decodeBytes, append_bytes]
  cases decode w <;> rfl

theorem getElem?_bytesOfWord (w : Word) {k : Nat} (hk : k < 4) :
    (bytesOfWord w)[k]? = some (w.extractLsb' (8 * k) 8) := by
  interval_cases k <;> rfl

/-- Settles O6. -/
theorem storedWordsAreLittleEndian : Obligations.StoredWordsAreLittleEndian := by
  refine ⟨by decide, fun w => ⟨rfl, fun k => getElem?_bytesOfWord w⟩, fun w i rest => ?_⟩
  rw [decodeBytes_bytesOfWord]
  cases decode w <;> simp [Except.map]

end Sys2Proof
end

section
/-! SUPPORT. R50 to R52 in both directions: the word of a command decodes to it, so a word decodes exactly by the rows it matches, it
matches at most one, and a form of command has as many words as operands. -/

namespace Sys2Proof

/-- The format and the opcode map agree: the fields of a packed word are its operands, and no earlier row has the opcode. -/
theorem decode_encode (i : Instr) : decode (encode i) = .ok i := by
  rw [decode_fields]
  cases i <;> simp [encode, opcode, operandBits_pack, bits5_pack, bits10_pack]

/-- Settles O3: the stored bytes are decoded as the word they store. -/
theorem decodeOfEncodeIsTheCommand : Obligations.DecodeOfEncodeIsTheCommand := by
  refine fun i => ⟨decode_encode i, fun rest => ?_⟩
  rw [decodeBytes_bytesOfWord, decode_encode]
  rfl

/-- Settles O4: `encode_of_decode`. -/
theorem encodeOfDecodeIsTheWord : Obligations.EncodeOfDecodeIsTheWord := fun _ _ => encode_of_decode

/-- R52: a word that matches a row is that row's command, whatever rows stand before it. -/
theorem decode_of_row {w : Word} {r : Row} (hr : r ∈ opcodeRows) (h : w &&& r.mask = r.matchBits) :
    decode w = .ok (r.build w) := by
  rw [← decode_encode (r.build w), encode_build w r hr h]

theorem decode_eq_ok_iff_row (w : Word) (i : Instr) :
    decode w = .ok i ↔ ∃ r ∈ opcodeRows, w &&& r.mask = r.matchBits ∧ i = r.build w :=
  ⟨fun h => by
    obtain ⟨r, hr, hw, hi⟩ := row_of_decode h
    exact ⟨r, hr, hw, hi.symm⟩,
   fun ⟨_, hr, hw, hi⟩ => hi ▸ decode_of_row hr hw⟩

/-! No word matches two rows: every mask keeps the whole opcode, and the rows differ in it. -/

theorem opField_of_hits {r : Row} (hr : r ∈ opcodeRows) {w : Word} (h : r.hits w) : opField r.matchBits = opField w := by
  have hmask : ∀ r ∈ opcodeRows, opField r.mask = BitVec.allOnes 4 := by decide
  have hw : w &&& r.mask = r.matchBits := by simpa [Row.hits] using h
  calc opField r.matchBits = opField w &&& opField r.mask := by rw [← hw]; exact BitVec.extractLsb'_and
    _ = opField w := by rw [hmask r hr, BitVec.and_allOnes]

theorem nodup_opcodes : (opcodeRows.map fun r => opField r.matchBits).Nodup := by decide

theorem length_filter_hits_le_one (w : Word) : (opcodeRows.filter fun r => r.hits w).length ≤ 1 := by
  have hnd : ((opcodeRows.filter fun r => r.hits w).map fun r => opField r.matchBits).Nodup :=
    nodup_opcodes.sublist (List.filter_sublist.map _)
  have hw : ∀ op ∈ (opcodeRows.filter fun r => r.hits w).map fun r => opField r.matchBits, op = opField w := by
    simp only [List.forall_mem_map, List.mem_filter]
    exact fun r ⟨hr, h⟩ => opField_of_hits hr h
  rw [List.eq_replicate_of_mem hw, List.nodup_replicate, List.length_map] at hnd
  exact hnd

/-! How many words a form of command has. -/

theorem decode_eq_ok_iff (w : Word) (i : Instr) : decode w = .ok i ↔ encode i = w :=
  ⟨encode_of_decode, fun h => h ▸ decode_encode i⟩

theorem encode_injective : Function.Injective encode := fun i j h => by
  have hi := (decode_eq_ok_iff _ i).2 h
  rw [decode_encode] at hi
  exact (Except.ok.inj hi).symm

/-- A family of different commands has as many words as members. -/
theorem ncard_words {α : Type} {f : α → Instr} (hf : Function.Injective f) :
    Set.ncard { w | ∃ a, decode w = .ok (f a) } = Nat.card α := by
  have hset : { w | ∃ a, decode w = .ok (f a) } = Set.range (encode ∘ f) := by
    ext w; simp [decode_eq_ok_iff]
  rw [hset, Set.ncard_range_of_injective (encode_injective.comp hf)]

theorem ncard_word_of_command (i : Instr) : Set.ncard { w | decode w = .ok i } = 1 := by
  simp only [decode_eq_ok_iff, eq_comm (a := encode i), Set.ofPred_eq_eq_singleton, Set.ncard_singleton]

theorem card_field : Nat.card Field = 32 := by
  rw [Nat.card_congr BitVec.equivFin.toEquiv, Nat.card_fin]; rfl

theorem ncard_words_field {f : Field → Instr} (hf : Function.Injective f) :
    Set.ncard { w | ∃ a, decode w = .ok (f a) } = 32 := (ncard_words hf).trans card_field

theorem ncard_words_field2 {f : Field → Field → Instr} (hf : Function.Injective2 f) :
    Set.ncard { w | ∃ a b, decode w = .ok (f a b) } = 1024 := by
  have h := ncard_words hf.uncurry
  rw [Nat.card_prod, card_field] at h
  simpa only [Prod.exists, Function.uncurry_apply_pair, Nat.reduceMul] using h

theorem ncard_words_ldk : Set.ncard { w | ∃ a b c d, decode w = .ok (.ldk a b c d) } = 2 ^ 20 := by
  have h := ncard_words (f := fun k : Field × Field × Field × Field => .ldk k.1 k.2.1 k.2.2.1 k.2.2.2)
    fun k l h => by simpa [Prod.ext_iff] using h
  rw [Nat.card_prod, Nat.card_prod, Nat.card_prod, card_field] at h
  simpa only [Prod.exists, Nat.reduceMul, Nat.reducePow] using h

/-- Settles O1: each command stands in one row of `decode_eq_ok_iff_row`, and `encode` counts its words. -/
theorem wordDecodesExactlyByItsRow : Obligations.WordDecodesExactlyByItsRow := by
  refine ⟨fun w => ?_, ncard_word_of_command _, ncard_words_ldk, ncard_word_of_command _, ncard_word_of_command _,
    ncard_words_field fun _ _ => Instr.modinv.inj, ncard_words_field2 fun _ _ _ _ => Instr.gcd.inj, ncard_word_of_command _,
    ncard_words_field2 fun _ _ _ _ => Instr.mule.inj, ncard_words_field2 fun _ _ _ _ => Instr.muld.inj,
    ncard_words_field fun _ _ => Instr.rdr.inj, ncard_word_of_command _⟩
  refine ⟨?_, ?_, ?_, ?_, ?_, ?_, ?_, ?_, ?_, ?_, ?_, length_filter_hits_le_one w⟩
  -- Ten of the rows build another command; the eleventh gives the mask and the operands.
  all_goals simp [decode_eq_ok_iff_row, opcodeRows, field0, field1, field2, field3]

end Sys2Proof
end

section
/-! SUPPORT. R55: which words match no row, and what they and a reserved index do. -/

namespace Sys2Proof

theorem exists_error_ite {p : Prop} [Decidable p] {i : Instr} {e : Illegal} :
    (∃ e', (if p then Except.ok i else Except.error e) = Except.error e') ↔ ¬ p := by
  split <;> simp [*]

/-- R55. With zero reserved bits an opcode leaves one test of `decode_fields`, on the operand fields its command does not use; those
from 11 up leave none. -/
theorem illegal_iff_fields (w : Word) :
    (∃ e, decode w = .error e) ↔
      11 ≤ (opField w).toNat ∨ rsvField w ≠ 0#8 ∨
      ((opField w).toNat ∈ [0, 2, 3, 6, 10] ∧ w.extractLsb' 0 20 ≠ 0#20) ∨
      ((opField w).toNat ∈ [4, 9] ∧ w.extractLsb' 5 15 ≠ 0#15) ∨
      ((opField w).toNat ∈ [5, 7, 8] ∧ w.extractLsb' 10 10 ≠ 0#10) := by
  rw [decode_fields]
  by_cases hr : rsvField w = 0#8
  · generalize opField w = op
    obtain ⟨op⟩ := op
    fin_cases op <;> simp [hr, exists_error_ite]
  · simp [hr]

end Sys2Proof

namespace Sys2Proof.Machine

theorem exec_rdr_reserved {r : Field} (h : 17 ≤ r.toNat) (s : State) :
    exec (.rdr r) s = raise .illegalCommand (encode (.rdr r)) s := by
  rw [exec, execRdr, (regOfIndex_eq_none r).2 h]

/-- Settles O2: `illegal_iff_fields`, and an illegal word or a reserved index is raised or refused as R132 and R133 have it. -/
theorem illegalWordsAndTheirEffect : Obligations.IllegalWordsAndTheirEffect := by
  refine ⟨illegal_iff_fields, fun w e s hd hr => ?_, fun w e s hd hp => ?_, fun r s h => ⟨decode_encode _, fun hr => ?_⟩⟩
  · rw [execWord_of_illegal hd, execIllegal, gated_ready s _ hr]
    exact raise_ready .illegalCommand w s hr
  · rw [execWord_of_illegal hd, execIllegal]
    exact gated_pending s _ hp
  · rw [execWord_of_decode (decode_encode _), exec_rdr_reserved h]
    exact raise_ready .illegalCommand _ s hr

end Sys2Proof.Machine
end

section
/-! SUPPORT. R51: with no error pending a command raises an error of `CanRaise` or none, so where all it can raise is one error for
an operand out of range, `wellFormed` decides. -/

namespace Sys2Proof.Machine

/-- A command that can raise an error raises one, and a command that can raise none leaves none pending. -/
theorem exec_ready_or_raises (i : Instr) {s : State} (hr : Ready s) :
    ∃ t, exec i s = .next t ∧
      ((Ready t ∧ ∀ e, ¬ CanRaise e i s) ∨ ∃ e, CanRaise e i s ∧ RaisesError (errorCode e) (encode i) s t) := by
  obtain ⟨t, ht, he⟩ := exec_effect i s
  refine ⟨t, ht, ?_⟩
  cases he with
  | refused hp => exact absurd hr hp
  | raised e _ hc => exact .inr ⟨e, hc, raisesError_answerWith e _ s hr⟩
  | nop hi | det hi | gcd _ _ hi => exact .inl ⟨hr, by simp [CanRaise, hi]⟩
  | cleared hi => exact .inl ⟨statusErr_setError _ _ _, by simp [CanRaise, hi]⟩
  | valk hi => exact .inl ⟨(statusErr_setKv _ _).trans hr, by simp [CanRaise, hi]⟩
  | loaded _ _ _ _ hi _ hv => exact .inl ⟨by simpa [ready_iff] using hr, by simp [CanRaise, hi, hv]⟩
  | modinv _ _ hi _ hx => exact .inl ⟨hr, by simp [CanRaise, hi, hx]⟩
  | invk _ hi _ hx => exact .inl ⟨(statusErr_setIv _ _).trans hr, by simp [CanRaise, hi, hx]⟩
  | mule _ _ hi _ hf hv | muld _ _ hi _ hf hv => exact .inl ⟨hr, by simp [CanRaise, hi, hf, hv]⟩
  | read r _ hi hv =>
    have hindex : ¬ 17 ≤ r.toNat := by simp [← regOfIndex_eq_none, hv]
    exact .inl ⟨hr, by simp [CanRaise, hi, hindex]⟩

theorem valueAccepted_iff (v : Field) : valueAccepted v = true ↔ v.toNat ≤ 26 := isValue_iff v

/-- A command whose only possible error is `e`, raised where an operand is out of range. -/
theorem exec_raises_of_ill_formed {i : Instr} {e : EngineError} {s : State} (hr : Ready s)
    (hc : ∀ e', CanRaise e' i s ↔ e' = e ∧ ¬ wellFormed i = true) :
    ∃ t, exec i s = .next t ∧ (if wellFormed i then Ready t else RaisesError (errorCode e) (encode i) s t) := by
  obtain ⟨t, ht, ⟨hready, hno⟩ | ⟨e', he', hraise⟩⟩ := exec_ready_or_raises i hr
  · have hw : wellFormed i = true := not_not.1 fun hw => hno e ((hc e).2 ⟨rfl, hw⟩)
    exact ⟨t, ht, by rwa [if_pos hw]⟩
  · obtain ⟨rfl, hw⟩ := (hc e').1 he'
    exact ⟨t, ht, by rwa [if_neg hw]⟩

/-- Settles O7: with the flag set, `CanRaise` of each command is that an operand is out of range. -/
theorem operandRangesAreChecked : Obligations.OperandRangesAreChecked := by
  refine ⟨fun a b c d s hr => ?ldk, fun a b s hr hk => ?mule, fun a b s hr hi => ?muld, fun r s hr => ?rdr,
    fun _ => rfl, fun _ _ => rfl⟩
  case ldk =>
    exact exec_raises_of_ill_formed (e := .invalidValue) hr fun e => by
      simp only [CanRaise, wellFormed, Bool.and_eq_true, valueAccepted_iff, and_assoc]
  case mule =>
    exact exec_raises_of_ill_formed (e := .invalidValue) hr fun e => by
      simp [CanRaise, wellFormed, valueAccepted_iff, keyValidated_iff, (keyValidated_iff s).1 hk]
  case muld =>
    exact exec_raises_of_ill_formed (e := .invalidValue) hr fun e => by
      simp [CanRaise, wellFormed, valueAccepted_iff, inverseValid_iff, (inverseValid_iff s).1 hi]
  case rdr =>
    exact exec_raises_of_ill_formed (e := .illegalCommand) hr fun e => by
      simp [CanRaise, wellFormed, indexAccepted, Nat.lt_iff_add_one_le]

end Sys2Proof.Machine
end

section
/-! SUPPORT. R58: the pseudo-instructions. -/

namespace Sys2Proof.Machine

/-- Settles O57: the `k`-th block's command is the image of the `k`-th block. -/
theorem pseudoInstructionsExpand : Obligations.PseudoInstructionsExpand := by
  refine ⟨fun a b c d => ⟨rfl, rfl⟩, rfl, fun bs => ⟨?_, ?_, rfl, fun k v hk => ⟨?_, ?_⟩⟩⟩
  · simp [expand]
  · simp [expand]
  · simp [expand, hk]
  · simp [expand, hk]

end Sys2Proof.Machine
end

section
/-! SUPPORT. R70 to R73: the written-out words, key load, register read and the clearing of an error. -/

namespace Sys2Proof

/-- Settles O5: each word is the encoding of its command. -/
theorem writtenOutWordsDecode : Obligations.WrittenOutWordsDecode := by
  unfold Obligations.WrittenOutWordsDecode
  simp only [decode_eq_ok_iff]
  decide

end Sys2Proof

namespace Sys2Proof.Machine

/-! `LDK` (R70). -/

section
variable {a b c d : Field} {s : State} (hr : Ready s)
include hr

theorem exec_ldk_of_legal (hv : a.toNat ≤ 26 ∧ b.toNat ≤ 26 ∧ c.toNat ≤ 26 ∧ d.toNat ≤ 26) :
    exec (.ldk a b c d) s = respond 0
      { s with
        k00 := a, k01 := b, k10 := c, k11 := d, i00 := 0, i01 := 0, i10 := 0, i11 := 0
        status := statusSetIv false (statusSetKv false s.status) } := by
  rw [exec, execLdk, gated_ready s _ hr, if_pos (by simpa [isValue_iff, and_assoc] using hv)]

theorem exec_ldk_of_illegal (hv : 26 < a.toNat ∨ 26 < b.toNat ∨ 26 < c.toNat ∨ 26 < d.toNat) :
    exec (.ldk a b c d) s = raise .invalidValue (encode (.ldk a b c d)) s := by
  have hn : ¬ (isValue a && isValue b && isValue c && isValue d) = true := by
    simp only [Bool.and_eq_true, isValue_iff]
    omega
  rw [exec, execLdk, gated_ready s _ hr, if_neg hn]

end

/-- Settles O18: with no error pending the operands decide between `respond` and `raise`, else the gate refuses. -/
theorem ldkLoadsTheKey : Obligations.LdkLoadsTheKey := by
  refine fun a b c d s => ⟨rfl, fun hr ha hb hc hd => ?legal, fun hr hv => ?illegal, fun hp => gated_pending s _ hp⟩
  case legal =>
    rw [exec_ldk_of_legal hr ⟨ha, hb, hc, hd⟩]
    refine ⟨_, rfl, rfl, ?kv, ?iv, ?err, ?upper, responds_answerWith 0 s _ rfl⟩
    case kv => simp [keyValidated_iff]
    case iv => simp [inverseValid_iff]
    case err => exact (setIv_bits _ _ 0 4 (by omega)).trans (setKv_bits _ _ 0 4 (by omega))
    case upper => exact (setIv_bits _ _ 6 6 (by omega)).trans (setKv_bits _ _ 6 6 (by omega))
  case illegal =>
    rw [exec_ldk_of_illegal hr hv]
    exact raise_ready .invalidValue _ s hr

/-! `RDR` (R72). -/

/-- The registers in the order of their indices (R10). -/
def regsByIndex : List Reg :=
  [.k00, .k01, .k10, .k11, .i00, .i01, .i10, .i11, .det, .detm, .sinv, .gcdr, .out0, .out1, .status, .earg, .id]

theorem regOfIndex_eq_getElem? (r : Field) : regOfIndex r = regsByIndex[r.toNat]? := by
  revert r; decide

theorem exec_rdr_of_index {r : Field} {reg : Reg} (h : regOfIndex r = some reg) (s : State) :
    exec (.rdr r) s = respond (readReg reg s) s := by
  rw [exec, execRdr, h]

/-- Settles O20: the listed values are those of the registers in the order of their indices; a reserved index is raised. -/
theorem rdrReadsTheRegister : Obligations.RdrReadsTheRegister := by
  refine fun r s => ⟨rfl, fun v hv => ?read, fun h hr => ?raised, fun h hp => ?refused⟩
  case read =>
    have hread : (regsByIndex.map (readReg · s))[r.toNat]? = some v := hv
    rw [List.getElem?_map, ← regOfIndex_eq_getElem?, Option.map_eq_some_iff] at hread
    obtain ⟨reg, hreg, rfl⟩ := hread
    rw [exec_rdr_of_index hreg]
    exact respond_spec _ s s rfl
  case raised =>
    rw [exec_rdr_reserved h]
    exact raise_ready .illegalCommand _ s hr
  case refused =>
    rw [exec_rdr_reserved h]
    exact raise_pending .illegalCommand _ s hp

/-! `CLRE` (R73). -/

/-- The error record a status already holds changes none of its bits. -/
theorem statusSetError_self (st : BitVec 12) : statusSetError (statusErr st) (statusEop st) st = st := by
  unfold statusSetError statusErr statusEop
  rw [BitVec.extractLsb'_append_extractLsb'_eq_extractLsb' (start₁ := 4) (len₁ := 4) rfl,
    BitVec.extractLsb'_append_extractLsb'_eq_extractLsb' (start₁ := 0) (len₁ := 4) rfl]
  exact BitVec.extractLsb'_eq_self

/-- R73: by R26 (d) the error record is clean where no error is pending, so there is nothing to clear. -/
theorem clearError_of_ready {s : State} (h : EngineInv s) (hr : Ready s) : clearError s = s := by
  obtain ⟨heop, hearg⟩ := ((engineInv_iff s).1 h).no_error_clean hr
  have hst : statusSetError 0 0 s.status = s.status := by
    have hself := statusSetError_self s.status
    rwa [(ready_iff s).1 hr, show statusEop s.status = 0#4 from heop] at hself
  rw [clearError, hst, ← hearg]

/-- Settles O22: `CLRE` answers over `clearError`. -/
theorem clreClearsTheError : Obligations.ClreClearsTheError := by
  refine ⟨by decide, fun s => ⟨answerWith 0 (clearError s), rfl, rfl, ?ready, ?eop, ?flags, ?resp, fun h hr => ?clean⟩⟩
  case ready => exact statusErr_setError 0 0 s.status
  case eop => exact statusEop_setError 0 0 s.status
  case flags => exact setError_bits 0 0 s.status 4 4 (by omega)
  case resp => exact responds_answerWith 0 s _ (clearError_responses s)
  case clean =>
    rw [clearError_of_ready h hr]
    exact onlyAnswered_answerWith 0 s

end Sys2Proof.Machine
end

section
/-! SUPPORT. R71: the responses already delivered have no part in what a command does. A run from a state with more of them is the
same run with those in front, so `NOP`, which only delivers one, can stand anywhere. -/

namespace Sys2Proof.Machine

/-- The state with these responses delivered before all of its own. -/
def prependResponses (rs : List Word) (s : State) : State := { s with responses := rs ++ s.responses }

/-- Change the state of an outcome that has one. -/
def mapNext (f : State → State) : Host.Outcome State Fault Refusal → Host.Outcome State Fault Refusal
  | .next s => .next (f s)
  | .fault e => .fault e
  | .refused e => .refused e

theorem prependResponses_forget (s : State) (rs : List Word) :
    prependResponses rs { s with responses := [] } = { s with responses := rs } := by
  rw [prependResponses, List.append_nil]

/-! The shared operations. -/

section
variable (rs : List Word) (s : State)

theorem respond_prependResponses (d : Data) :
    mapNext (prependResponses rs) (respond d s) = respond d (prependResponses rs s) := by
  simp [respond, mapNext, pushResponse, prependResponses]

theorem recordError_prependResponses (e : EngineError) (cmd : Word) :
    recordError e cmd (prependResponses rs s) = prependResponses rs (recordError e cmd s) := by
  rw [recordError, recordError, apply_ite (prependResponses rs)]
  rfl

theorem raise_prependResponses (e : EngineError) (cmd : Word) :
    mapNext (prependResponses rs) (raise e cmd s) = raise e cmd (prependResponses rs s) := by
  rw [raise, respond_prependResponses, raise, recordError_prependResponses]

theorem readReg_prependResponses (reg : Reg) : readReg reg (prependResponses rs s) = readReg reg s := by
  cases reg <;> rfl

theorem keyDeterminant_prependResponses : keyDeterminant (prependResponses rs s) = keyDeterminant s := rfl

/-- A test of the registers goes the same way. -/
theorem ite_prependResponses {p : Prop} [Decidable p] {o₁ o₂ o₁' o₂' : Host.Outcome State Fault Refusal}
    (h₁ : mapNext (prependResponses rs) o₁ = o₁') (h₂ : mapNext (prependResponses rs) o₂ = o₂') :
    mapNext (prependResponses rs) (if p then o₁ else o₂) = if p then o₁' else o₂' := by
  rw [apply_ite (mapNext (prependResponses rs)), h₁, h₂]

theorem gated_prependResponses {body body' : Host.Outcome State Fault Refusal}
    (h : mapNext (prependResponses rs) body = body') :
    mapNext (prependResponses rs) (gated s body) = gated (prependResponses rs s) body' :=
  ite_prependResponses rs h (respond_prependResponses rs s 0)

/-! Commands and runs. -/

theorem exec_prependResponses (i : Instr) :
    mapNext (prependResponses rs) (exec i s) = exec i (prependResponses rs s) := by
  have hrespond (d : Data) (s' : State) := respond_prependResponses rs s' d
  have hraise := raise_prependResponses rs s
  cases i with
  | nop | clre => exact hrespond _ _
  | ldk => exact gated_prependResponses rs s (ite_prependResponses rs (hrespond _ _) (hraise _ _))
  | det | valk | gcd => exact gated_prependResponses rs s (hrespond _ _)
  | modinv a =>
    refine gated_prependResponses rs s ?_
    cases modinv27 a.toNat with
    | none => exact hraise _ _
    | some x => exact hrespond _ _
  | invk =>
    refine gated_prependResponses rs s ?_
    rw [keyDeterminant_prependResponses]
    dsimp only
    cases modinv27 (mod27 (keyDeterminant s)) with
    | none => exact hraise _ _
    | some x => exact hrespond _ _
  | mule | muld =>
    exact gated_prependResponses rs s
      (ite_prependResponses rs (ite_prependResponses rs (hrespond _ _) (hraise _ _)) (hraise _ _))
  | rdr r =>
    rw [exec, execRdr, exec, execRdr]
    cases regOfIndex r with
    | none => exact hraise _ _
    | some reg =>
      dsimp only
      rw [readReg_prependResponses]
      exact hrespond _ _

theorem execWord_prependResponses (w : Word) :
    mapNext (prependResponses rs) (execWord w s) = execWord w (prependResponses rs s) := by
  cases hd : decode w with
  | ok i => rw [execWord_of_decode hd, execWord_of_decode hd, exec_prependResponses]
  | error e =>
    rw [execWord_of_illegal hd, execWord_of_illegal hd]
    exact gated_prependResponses rs s (raise_prependResponses rs s _ _)

end

theorem runCommands_prependResponses (ws rs : List Word) {s t : State} (h : runCommands ws s = .next t) :
    runCommands ws (prependResponses rs s) = .next (prependResponses rs t) := by
  induction ws generalizing s with
  | nil => cases h; rfl
  | cons w ws ih =>
    have hw := execWord_eq_answer w s
    have hw' : execWord w (prependResponses rs s) = .next (prependResponses rs (answer w s).2) := by
      rw [← execWord_prependResponses, hw, mapNext]
    rw [runCommands_cons hw] at h
    rw [runCommands_cons hw', ih h]

/-- R33: a run delivers one response for each of its words. -/
theorem runCommands_responds (ws : List Word) (s : State) :
    ∃ t, runCommands ws s = .next t ∧ t.responses.length = s.responses.length + ws.length := by
  induction ws generalizing s with
  | nil => exact ⟨s, rfl, rfl⟩
  | cons w ws ih =>
    obtain ⟨t, ht, hlen⟩ := ih (answer w s).2
    refine ⟨t, by rw [runCommands_cons (execWord_eq_answer w s), ht], ?_⟩
    rw [hlen, answer_responses, List.length_append, List.length_singleton, List.length_cons]
    omega

/-- A `NOP` before a run delivers one response and leaves the registers, so the rest runs as it would with that response in front. -/
theorem runCommands_nop_cons (ys : List Word) (v : State) : ∃ t r,
    runCommands ys v = .next (prependResponses v.responses t) ∧
      runCommands (encode .nop :: ys) v = .next (prependResponses (v.responses ++ [r]) t) := by
  have hnop : execWord (encode .nop) v = .next (answerWith 0 v) := execWord_of_decode (decode_encode .nop) v
  obtain ⟨t, ht, -⟩ := runCommands_responds ys { v with responses := [] }
  refine ⟨t, responseWord v.status 0, ?_, ?_⟩
  · rw [← runCommands_prependResponses ys _ ht, prependResponses_forget]
  · rw [runCommands_cons hnop, ← runCommands_prependResponses ys _ ht, prependResponses_forget]
    rfl

/-- Settles O19: the run up to the `NOP` is the same, and `runCommands_nop_cons` is the rest of it. -/
theorem nopChangesNothing : Obligations.NopChangesNothing := by
  refine ⟨by decide, fun s => ⟨answerWith 0 s, rfl, onlyAnswered_answerWith 0 s, responds_answerWith 0 s s rfl⟩, fun xs ys s => ?_⟩
  obtain ⟨v, hv, hlen⟩ := runCommands_responds xs s
  obtain ⟨t, r, ht, hu⟩ := runCommands_nop_cons ys v
  refine ⟨prependResponses v.responses t, prependResponses (v.responses ++ [r]) t, v.responses, r, t.responses, ?_, ?_, hlen,
    rfl, ?_, rfl⟩
  · rw [runCommands_append hv, ht]
  · rw [runCommands_append hv, hu]
  · rw [prependResponses, List.append_assoc, List.singleton_append]

end Sys2Proof.Machine
end

section
/-! SUPPORT. R83 to R86: which numbers have an inverse modulo 27, and the Euclidean recursion as the library's `Nat.gcd`. -/

namespace Sys2Proof.Machine

/-! The inverse modulo 27 (R83, R84). -/

theorem gcd_27_eq_one_iff (a : Nat) : Nat.gcd a 27 = 1 ↔ a % 3 ≠ 0 := by
  have hpow : Nat.Coprime a (3 ^ 3) ↔ Nat.Coprime a 3 := Nat.coprime_pow_right_iff (by decide) a 3
  have hprime : Nat.Coprime a 3 ↔ ¬ 3 ∣ a := Nat.coprime_comm.trans (Nat.Prime.coprime_iff_not_dvd Nat.prime_three)
  exact (hpow.trans hprime).trans (not_congr Nat.dvd_iff_mod_eq_zero)

theorem coprime_of_mul_mod_eq_one {a x : Nat} (h : a * x % 27 = 1) : Nat.Coprime a 27 :=
  Nat.coprime_of_mul_modEq_one (n := 27) x h

/-- The search goes over all residues but 0, so it finds the inverse there is. -/
theorem exists_modinv27_iff (a : Nat) : (∃ x, modinv27 a = some x) ↔ Nat.gcd a 27 = 1 := by
  constructor
  · rintro ⟨x, hx⟩
    obtain ⟨-, -, hfit, -⟩ := (modinv27_eq_some a x).1 hx
    exact coprime_of_mul_mod_eq_one hfit
  · intro hcop
    obtain ⟨x, hlt, hfit⟩ := Nat.exists_mul_mod_eq_one_of_coprime (k := 27) hcop (by decide)
    have hpos : x ≠ 0 := by rintro rfl; simp at hfit
    rw [← Option.ne_none_iff_exists', ne_eq, modinv27_eq_none]
    exact fun hnone => hnone x (by omega) (by omega) hfit

/-- Two inverses differ by a multiple of 27, so in one period there is one. -/
theorem modinv27_unique {a x y : Nat} (hx : modinv27 a = some x) (hy : y ≤ 26) (hfit : a * y % 27 = 1) : y = x := by
  obtain ⟨-, hx26, hxfit, -⟩ := (modinv27_eq_some a x).1 hx
  have hcop : Nat.gcd 27 a = 1 := (coprime_of_mul_mod_eq_one hfit).symm
  have hmod : y ≡ x [MOD 27] := Nat.ModEq.cancel_left_of_coprime hcop (hfit.trans hxfit.symm)
  exact Nat.ModEq.eq_of_lt_of_lt hmod (by omega) (by omega)

theorem modinv27_mod (a : Nat) : modinv27 (a % 27) = modinv27 a := by
  ext x
  simp only [modinv27_eq_some, Nat.mod_mul_mod]

/-- Settles O25: an inverse is coprimality with 27, and 3 is the only prime of 27; the table is the search run for each operand. -/
theorem scalarInverseTable : Obligations.ScalarInverseTable :=
  ⟨exists_modinv27_iff, fun a => (exists_modinv27_iff a).trans (gcd_27_eq_one_iff a),
    fun _ _ _ hx _ hy hfit => modinv27_unique hx hy hfit, fun a => (modinv27_mod a).symm, by decide⟩

/-! The Euclidean recursion (R86). -/

theorem euclid_rec (a b : Nat) : euclid a b = euclid b (a % b) := by
  rw [euclid_eq, euclid_eq, Nat.gcd_comm a b, Nat.gcd_rec b a, Nat.gcd_comm]

theorem euclid_comm (a b : Nat) : euclid a b = euclid b a := by
  rw [euclid_eq, euclid_eq, Nat.gcd_comm]

theorem dvd_euclid {a b c : Nat} (ha : c ∣ a) (hb : c ∣ b) : c ∣ euclid a b :=
  euclid_eq a b ▸ Nat.dvd_gcd ha hb

/-- Settles O27: the recursion and the divisibilities are those of `Nat.gcd`; the values against 27 are the recursion run. -/
theorem euclidIsTheGreatestCommonDivisor : Obligations.EuclidIsTheGreatestCommonDivisor := by
  refine ⟨fun a => ?zero, fun a b _ => euclid_rec a b,
    fun a b => ⟨?left, ?right, fun _ => dvd_euclid, euclid_comm a b⟩, by decide⟩
  case zero =>
    simp only [euclid_eq, Nat.gcd_zero_right, Nat.gcd_zero_left, and_self]
  case left => rw [euclid_eq]; exact Nat.gcd_dvd_left a b
  case right => rw [euclid_eq]; exact Nat.gcd_dvd_right a b

end Sys2Proof.Machine
end

section
/-! SUPPORT. R80, R82, R85: `DET`, `MODINV` and `GCD`. One equation for each way a command ends with no error pending. -/

namespace Sys2Proof.Machine

theorem toDet_keyDeterminant (s : State) : (toDet (keyDeterminant s)).toInt = keyDet s := toDet_determinant ..

/-- The answer of a command that writes `n` to a 5-bit register. -/
theorem zext20_toField {n : Nat} (h : n < 32) : zext20 (toField n) = BitVec.ofNat 20 n := by
  apply BitVec.eq_of_toNat_eq
  rw [zext20_toNat, toField_toNat n h, BitVec.toNat_ofNat, Nat.mod_eq_of_lt (by omega)]

/-- R85: the greatest common divisor of two operands fits their register. -/
theorem gcd_toNat_lt (a b : Field) : Nat.gcd a.toNat b.toNat < 32 := by
  rcases Nat.eq_zero_or_pos a.toNat with h | h
  · rw [h, Nat.gcd_zero_left]; exact b.isLt
  · exact (Nat.gcd_le_left _ h).trans_lt a.isLt

section
variable {s : State} (hr : Ready s)
include hr

theorem exec_det_of_ready :
    exec .det s = respond (sext20 (toDet (keyDeterminant s))) { s with det := toDet (keyDeterminant s) } := by
  rw [exec, execDet, gated_ready s _ hr]

theorem exec_modinv_of_some {a : Field} {x : Nat} (hx : modinv27 a.toNat = some x) :
    exec (.modinv a) s = respond (zext20 (toField x)) { s with sinv := toField x } := by
  rw [exec, execModinv, gated_ready s _ hr, hx]

theorem exec_modinv_of_none {a : Field} (hx : modinv27 a.toNat = none) :
    exec (.modinv a) s = raise .noModularInverse (encode (.modinv a)) s := by
  rw [exec, execModinv, gated_ready s _ hr, hx]

theorem exec_gcd_of_ready (a b : Field) :
    exec (.gcd a b) s = respond (zext20 (toField (Nat.gcd a.toNat b.toNat))) { s with gcdr := toField (Nat.gcd a.toNat b.toNat) } := by
  rw [exec, execGcd, gated_ready s _ hr, euclid_eq]

end

/-- Settles O23: the 16-bit register holds every determinant, and sign extension keeps it. -/
theorem detComputesTheDeterminant : Obligations.DetComputesTheDeterminant := by
  refine ⟨by decide, fun s => ⟨fun hr => ?_, fun hp => gated_pending s _ hp⟩⟩
  rw [exec_det_of_ready hr]
  exact ⟨_, rfl, rfl, toDet_keyDeterminant s, _, responds_answerWith _ s _ rfl, (sext20_toInt _).trans (toDet_keyDeterminant s)⟩

/-- Settles O24: what the search of R83 finds decides between `respond` and `raise`. -/
theorem modinvFindsTheSmallestInverse : Obligations.ModinvFindsTheSmallestInverse := by
  refine fun a s => ⟨rfl, fun hr x h1 h26 hfit hleast => ?found, fun hr hnone => ?failed, fun hp => gated_pending s _ hp⟩
  case found =>
    have hx : modinv27 a.toNat = some x := (modinv27_eq_some _ x).2 ⟨h1, h26, hfit, hleast⟩
    rw [exec_modinv_of_some hr hx, zext20_toField (by omega)]
    exact ⟨hx, _, rfl, rfl, toField_toNat x (by omega), responds_answerWith _ s _ rfl⟩
  case failed =>
    have hx : modinv27 a.toNat = none := (modinv27_eq_none _).2 hnone
    rw [exec_modinv_of_none hr hx]
    exact ⟨hx, raise_ready .noModularInverse _ s hr⟩

/-- Settles O26: the Euclidean recursion is `Nat.gcd`, whose value fits the register and the answer. -/
theorem gcdComputesTheGcd : Obligations.GcdComputesTheGcd := by
  refine fun a b s => ⟨rfl, fun hr => ?_, fun hp => gated_pending s _ hp⟩
  have hlt := gcd_toNat_lt a b
  rw [exec_gcd_of_ready hr, zext20_toField hlt]
  exact ⟨_, rfl, rfl, toField_toNat _ hlt, responds_answerWith _ s _ rfl⟩

end Sys2Proof.Machine
end

section
/-! SUPPORT. R87: `VALK`, and the count of the keys it validates. Only the residues modulo 3 of the entries matter: 48 of the 3^4
matrices of residues are invertible, and each residue stands for 9 of the 27 values. -/

namespace Sys2Proof.Machine

/-- The state after `VALK` with no error pending, its response delivered. -/
def validated (s : State) : State :=
  answerWith (if Int.gcd (keyDet s % 27) 27 = 1 then 1 else 0)
    { s with
      det := toDet (keyDeterminant s), detm := toField (mod27 (keyDeterminant s))
      gcdr := toField (Int.gcd (keyDet s % 27) 27)
      status := statusSetKv (decide (Int.gcd (keyDet s % 27) 27 = 1)) s.status }

/-- A residue in its register, as the integers' remainder. -/
theorem toField_mod27_cast (z : Int) : ((toField (mod27 z)).toNat : Int) = z % 27 := by
  rw [toField_mod27_toNat, mod27_cast]

theorem exec_valk_of_ready {s : State} (hr : Ready s) : exec .valk s = .next (validated s) := by
  have hg : euclid (mod27 (keyDeterminant s)) 27 = Int.gcd (keyDet s % 27) 27 := euclid_mod27 _
  simp only [exec, execValk, gated_ready s _ hr, hg]
  rfl

theorem keyValidated_validated (s : State) : KeyValidated (validated s) ↔ Int.gcd (keyDet s % 27) 27 = 1 := by
  rw [keyValidated_iff, validated, answerWith_status, statusKv_setKv, decide_eq_true_iff]

/-- R87: a key is valid exactly when 3 does not divide its determinant. -/
theorem gcd_emod_27_eq_one_iff (z : Int) : Int.gcd (z % 27) 27 = 1 ↔ z % 3 ≠ 0 := by
  rw [← euclid_mod27, euclid_eq, gcd_27_eq_one_iff]
  have := mod27_cast z
  omega

theorem gcd_emod_27_le (z : Int) : Int.gcd (z % 27) 27 ≤ 27 := by
  rw [← euclid_mod27, euclid_eq]
  exact Nat.gcd_le_right _ (by decide)

theorem validates_iff {s : State} (hr : Ready s) :
    (∃ t, exec .valk s = .next t ∧ KeyValidated t) ↔ keyDet s % 3 ≠ 0 := by
  rw [exec_valk_of_ready hr, ← gcd_emod_27_eq_one_iff, ← keyValidated_validated]
  exact ⟨fun ⟨_, ht, hk⟩ => next_inj ht ▸ hk, fun hk => ⟨_, rfl, hk⟩⟩

/-! The count. -/

/-- A legal value from its residue modulo 3 and its quotient. -/
def valueOfDigits (r : Fin 3) (q : Fin 9) : Field := toField (3 * q + r)

theorem valueOfDigits_toNat (r : Fin 3) (q : Fin 9) : (valueOfDigits r q).toNat = 3 * q + r :=
  toField_toNat _ (by omega)

theorem exists_digits {v : Field} (hv : v.toNat ≤ 26) : ∃ r q, valueOfDigits r q = v := by
  refine ⟨⟨v.toNat % 3, by omega⟩, ⟨v.toNat / 3, by omega⟩, BitVec.eq_of_toNat_eq ?_⟩
  rw [valueOfDigits_toNat]
  exact Nat.div_add_mod v.toNat 3

theorem valueOfDigits_inj {r r' : Fin 3} {q q' : Fin 9} (h : valueOfDigits r q = valueOfDigits r' q') : r = r' ∧ q = q' := by
  have hn := congrArg BitVec.toNat h
  rw [valueOfDigits_toNat, valueOfDigits_toNat] at hn
  omega

/-- A legal key from the residues and the quotients of its entries. -/
def keyOfDigits (d : (Fin 3 × Fin 3 × Fin 3 × Fin 3) × (Fin 9 × Fin 9 × Fin 9 × Fin 9)) : Field × Field × Field × Field :=
  (valueOfDigits d.1.1 d.2.1, valueOfDigits d.1.2.1 d.2.2.1, valueOfDigits d.1.2.2.1 d.2.2.2.1, valueOfDigits d.1.2.2.2 d.2.2.2.2)

theorem keyOfDigits_injective : Function.Injective keyOfDigits := by
  rintro ⟨⟨r0, r1, r2, r3⟩, q0, q1, q2, q3⟩ ⟨⟨r0', r1', r2', r3'⟩, q0', q1', q2', q3'⟩ h
  simp only [keyOfDigits, Prod.mk.injEq] at h
  obtain ⟨h0, h1, h2, h3⟩ := h
  obtain ⟨rfl, rfl⟩ := valueOfDigits_inj h0
  obtain ⟨rfl, rfl⟩ := valueOfDigits_inj h1
  obtain ⟨rfl, rfl⟩ := valueOfDigits_inj h2
  obtain ⟨rfl, rfl⟩ := valueOfDigits_inj h3
  rfl

theorem valueOfDigits_le (r : Fin 3) (q : Fin 9) : (valueOfDigits r q).toNat ≤ 26 := by
  rw [valueOfDigits_toNat]; omega

theorem valueOfDigits_modEq (r : Fin 3) (q : Fin 9) : ((valueOfDigits r q).toNat : Int) ≡ r [ZMOD 3] := by
  rw [valueOfDigits_toNat]
  push_cast
  exact Int.modEq_iff_add_fac.2 ⟨-q, by ring⟩

/-- The matrices of residues whose determinant is not divisible by 3. -/
def invertibleResidues : Set (Fin 3 × Fin 3 × Fin 3 × Fin 3) :=
  { r | ((r.1 : Int) * r.2.2.2 - r.2.1 * r.2.2.1) % 3 ≠ 0 }

theorem ncard_invertibleResidues : invertibleResidues.ncard = 48 := by
  unfold invertibleResidues
  rw [Set.ncard_eq_toFinset_card']
  decide

/-- The legal keys whose determinant is not divisible by 3. -/
def validKeys : Set (Field × Field × Field × Field) :=
  { k | k.1.toNat ≤ 26 ∧ k.2.1.toNat ≤ 26 ∧ k.2.2.1.toNat ≤ 26 ∧ k.2.2.2.toNat ≤ 26 ∧
    ((k.1.toNat : Int) * k.2.2.2.toNat - k.2.1.toNat * k.2.2.1.toNat) % 3 ≠ 0 }

theorem keyOfDigits_mem_validKeys (r : Fin 3 × Fin 3 × Fin 3 × Fin 3) (q : Fin 9 × Fin 9 × Fin 9 × Fin 9) :
    keyOfDigits (r, q) ∈ validKeys ↔ r ∈ invertibleResidues := by
  have hdet := (((valueOfDigits_modEq r.1 q.1).mul (valueOfDigits_modEq r.2.2.2 q.2.2.2)).sub
    ((valueOfDigits_modEq r.2.1 q.2.1).mul (valueOfDigits_modEq r.2.2.1 q.2.2.1))).eq
  simp only [validKeys, invertibleResidues, keyOfDigits, Set.mem_ofPred_eq, valueOfDigits_le, true_and, hdet]

theorem exists_keyOfDigits {k : Field × Field × Field × Field} (hk : k ∈ validKeys) : ∃ d, keyOfDigits d = k := by
  obtain ⟨h0, h1, h2, h3, -⟩ := hk
  obtain ⟨r0, q0, e0⟩ := exists_digits h0
  obtain ⟨r1, q1, e1⟩ := exists_digits h1
  obtain ⟨r2, q2, e2⟩ := exists_digits h2
  obtain ⟨r3, q3, e3⟩ := exists_digits h3
  exact ⟨((r0, r1, r2, r3), q0, q1, q2, q3), by simp only [keyOfDigits, e0, e1, e2, e3]⟩

theorem validKeys_eq_image : validKeys = keyOfDigits '' (invertibleResidues ×ˢ Set.univ) := by
  ext k
  constructor
  · intro hk
    obtain ⟨⟨r, q⟩, rfl⟩ := exists_keyOfDigits hk
    exact ⟨(r, q), ⟨(keyOfDigits_mem_validKeys r q).1 hk, trivial⟩, rfl⟩
  · rintro ⟨⟨r, q⟩, ⟨hr, -⟩, rfl⟩
    exact (keyOfDigits_mem_validKeys r q).2 hr

theorem ncard_validKeys : validKeys.ncard = 314928 := by
  rw [validKeys_eq_image, Set.ncard_image_of_injective _ keyOfDigits_injective, Set.ncard_prod, ncard_invertibleResidues,
    Set.ncard_univ]
  simp only [Nat.card_prod, Nat.card_fin]

/-- Settles O28: `validated` is the state `VALK` leaves, and the keys it validates from reset are `validKeys`. -/
theorem valkValidatesTheKey : Obligations.ValkValidatesTheKey := by
  refine ⟨by decide, fun s => ⟨fun hr => ?ready, fun hp => gated_pending s _ hp⟩, ?count⟩
  case ready =>
    have hkv := keyValidated_validated s
    refine ⟨validated s, exec_valk_of_ready hr, rfl, toDet_keyDeterminant s, toField_mod27_cast _, ?gcdr, hkv,
      hkv.trans (gcd_emod_27_eq_one_iff _), ?low, ?high, responds_answerWith _ s _ rfl⟩
    case gcdr => exact toField_toNat _ (by have := gcd_emod_27_le (keyDet s); omega)
    case low => exact setKv_bits _ s.status 0 4 (by omega)
    case high => exact setKv_bits _ s.status 5 7 (by omega)
  case count =>
    have hready (a b c d : Field) : Ready { State.reset with k00 := a, k01 := b, k10 := c, k11 := d } := rfl
    simp only [validates_iff (hready _ _ _ _)]
    exact ncard_validKeys

end Sys2Proof.Machine
end

section
/-! SUPPORT. R88, R89: `INVK`. What the search of R83 finds for the determinant's residue decides whether it writes an
inverse or raises. -/

namespace Sys2Proof.Machine

/-- The state after `INVK` that found the inverse `x` of the determinant, its response delivered. -/
def inverted (x : Nat) (s : State) : State :=
  answerWith
    (toField (mod27 (s.k00.toNat * x)) ++ toField (mod27 (-s.k10.toNat * x)) ++
      toField (mod27 (-s.k01.toNat * x)) ++ toField (mod27 (s.k11.toNat * x)))
    { s with
      det := toDet (keyDeterminant s), detm := toField (mod27 (keyDeterminant s)), sinv := toField x
      i00 := toField (mod27 (s.k11.toNat * x)), i01 := toField (mod27 (-s.k01.toNat * x))
      i10 := toField (mod27 (-s.k10.toNat * x)), i11 := toField (mod27 (s.k00.toNat * x))
      status := statusSetIv true s.status }

/-- An inverse of the residue of an integer, over the integers and over the naturals. -/
theorem emod_27_mul_eq_one_iff (z : Int) (x : Nat) : z % 27 * x % 27 = 1 ↔ mod27 z * x % 27 = 1 := by
  rw [← mod27_cast z]
  norm_cast

section
variable {s : State} (hr : Ready s)
include hr

theorem exec_invk_of_some {x : Nat} (hx : modinv27 (mod27 (keyDeterminant s)) = some x) :
    exec .invk s = .next (inverted x s) := by
  simp only [exec, execInvk, gated_ready s _ hr, hx]
  rfl

theorem exec_invk_of_none (hx : modinv27 (mod27 (keyDeterminant s)) = none) :
    exec .invk s = raise .noModularInverse (encode .invk) s := by
  simp only [exec, execInvk, gated_ready s _ hr, hx]

theorem ready_inverted (x : Nat) : Ready (inverted x s) := (statusErr_setIv true s.status).trans hr

/-- `INVK` leaves no error pending exactly where it writes an inverse. -/
theorem exec_invk_ready_iff (t : State) :
    exec .invk s = .next t ∧ Ready t ↔ ∃ x, modinv27 (mod27 (keyDeterminant s)) = some x ∧ t = inverted x s := by
  cases hx : modinv27 (mod27 (keyDeterminant s)) with
  | none =>
    obtain ⟨u, hu, hraise⟩ := raise_ready .noModularInverse (encode .invk) s hr
    rw [exec_invk_of_none hr hx, hu]
    exact ⟨fun ⟨hut, ht⟩ => absurd (next_inj hut ▸ ht) (not_ready_of_raises hraise), fun ⟨_, hsome, _⟩ => nomatch hsome⟩
  | some x =>
    rw [exec_invk_of_some hr hx]
    constructor
    · rintro ⟨ht, -⟩
      exact ⟨x, rfl, (next_inj ht).symm⟩
    · rintro ⟨y, hy, rfl⟩
      cases hy
      exact ⟨rfl, ready_inverted hr x⟩

end

/-- Settles O29: the search over the determinant's residue decides between `inverted` and `raise`. -/
theorem invkInvertsTheKey : Obligations.InvkInvertsTheKey := by
  refine ⟨by decide, fun s => ⟨fun hr x h1 h26 hfit hleast => ?found, fun hr hnone => ?failed, fun hp => gated_pending s _ hp⟩⟩
  case found =>
    have hx : modinv27 (mod27 (keyDeterminant s)) = some x := (modinv27_eq_some _ x).2
      ⟨h1, h26, (emod_27_mul_eq_one_iff _ x).1 hfit, fun y hy hyx hy1 => hleast y hy hyx ((emod_27_mul_eq_one_iff _ y).2 hy1)⟩
    exact ⟨inverted x s, exec_invk_of_some hr hx, rfl, toDet_keyDeterminant s, toField_mod27_cast _, toField_toNat x (by omega),
      toField_mod27_cast _, toField_mod27_cast _, toField_mod27_cast _, toField_mod27_cast _, statusIv_setIv true s.status,
      setIv_bits true s.status 0 5 (by omega), setIv_bits true s.status 6 6 (by omega), responds_answerWith _ s _ rfl⟩
  case failed =>
    have hx : modinv27 (mod27 (keyDeterminant s)) = none := (modinv27_eq_none _).2
      fun x h1 h26 hfit => hnone x h1 h26 ((emod_27_mul_eq_one_iff _ x).2 hfit)
    rw [exec_invk_of_none hr hx]
    exact raise_ready .noModularInverse (encode .invk) s hr

/-! The properties of R89. -/

/-- R89 (a): both commands test that the determinant is coprime to 27. -/
theorem invk_succeeds_iff {s : State} (hr : Ready s) :
    (∃ t, exec .invk s = .next t ∧ Ready t) ↔ ∃ t, exec .valk s = .next t ∧ Responds s t 1 := by
  have hvalk : Responds s (validated s) 1 ↔ Int.gcd (keyDet s % 27) 27 = 1 := by
    rw [valk_responds_one_iff (exec_valk_of_ready hr), keyValidated_validated, and_iff_right hr]
  have hinvk : (∃ x, modinv27 (mod27 (keyDet s)) = some x) ↔ Int.gcd (keyDet s % 27) 27 = 1 := by
    rw [exists_modinv27_iff, ← euclid_eq, euclid_mod27]
  calc (∃ t, exec .invk s = .next t ∧ Ready t)
    _ ↔ ∃ x, modinv27 (mod27 (keyDet s)) = some x := by
      simp only [exec_invk_ready_iff hr]
      exact ⟨fun ⟨_, x, hx, _⟩ => ⟨x, hx⟩, fun ⟨x, hx⟩ => ⟨_, x, hx, rfl⟩⟩
    _ ↔ Responds s (validated s) 1 := hinvk.trans hvalk.symm
    _ ↔ ∃ t, exec .valk s = .next t ∧ Responds s t 1 := by
      rw [exec_valk_of_ready hr]
      exact ⟨fun h => ⟨_, rfl, h⟩, fun ⟨_, ht, h⟩ => next_inj ht ▸ h⟩

/-- R89 (b): the adjugate argument, over the registers `INVK` wrote. -/
theorem inverseOfKey_inverted {s : State} {x : Nat} (hx : modinv27 (mod27 (keyDeterminant s)) = some x) :
    InverseOfKey (inverted x s) :=
  inverseOfKey_adjugate (s := inverted x s) (x := x) (mod27_mul_of_modinv27 hx) (toField_mod27_toNat _) (toField_mod27_toNat _)
    (toField_mod27_toNat _) (toField_mod27_toNat _)

/-- R89 (d): the determinant of the adjugate times `x` is `d * x * x`, and `d * x` is 1 modulo 27. -/
theorem inverseDet_inverted {s : State} {x : Nat} (hx : modinv27 (mod27 (keyDeterminant s)) = some x) :
    (((inverted x s).i00.toNat : Int) * (inverted x s).i11.toNat - (inverted x s).i01.toNat * (inverted x s).i10.toNat) % 27 =
      (inverted x s).sinv.toNat := by
  have hentry (z : Int) : ((toField (mod27 z)).toNat : Int) ≡ z [ZMOD 27] := toField_mod27_cast z ▸ Int.mod_modEq z 27
  have hone : keyDet s * x ≡ 1 [ZMOD 27] := by
    have h1 := mod27_cast (keyDet s * x)
    rw [show mod27 (keyDet s * x) = 1 from mod27_mul_of_modinv27 hx] at h1
    exact h1.symm
  have hx26 := modinv27_le hx
  have hdet : _ ≡ (x : Int) [ZMOD 27] := calc
    ((inverted x s).i00.toNat : Int) * (inverted x s).i11.toNat - (inverted x s).i01.toNat * (inverted x s).i10.toNat
    _ ≡ s.k11.toNat * x * (s.k00.toNat * x) - -s.k01.toNat * x * (-s.k10.toNat * x) [ZMOD 27] :=
      ((hentry _).mul (hentry _)).sub ((hentry _).mul (hentry _))
    _ = keyDet s * x * x := by ring
    _ ≡ 1 * x [ZMOD 27] := hone.mul_right x
    _ = x := one_mul _
  rw [hdet.eq, show (inverted x s).sinv.toNat = x from toField_toNat x (by omega)]
  omega

/-- Settles O30: after success the state is `inverted` for the inverse the search found. -/
theorem invkSucceedsExactlyOnValidKeys : Obligations.InvkSucceedsExactlyOnValidKeys := by
  refine fun s hr => ⟨invk_succeeds_iff hr, fun t ht hready => ?_⟩
  obtain ⟨x, hx, rfl⟩ := (exec_invk_ready_iff hr t).1 ⟨ht, hready⟩
  exact ⟨inverseOfKey_inverted hx, toField_mod27_le _, toField_mod27_le _, toField_mod27_le _, toField_mod27_le _,
    inverseDet_inverted hx⟩

end Sys2Proof.Machine
end

section
/-! SUPPORT. R100, R101, R103: `MULE` and `MULD`. Each ends as `multiplied` or raises the one error `CanRaise` allows, and two block
multiplies in a row are one by the product of their matrices. -/

namespace Sys2Proof.Machine

/-! The component a block multiply writes, and the document's way to it (R102). -/

theorem toField_rowProduct_toNat (a b v0 v1 : Field) :
    (toField (rowProduct a b v0 v1)).toNat = (a.toNat * v0.toNat + b.toNat * v1.toNat) % 27 := by
  rw [← rowProduct_eq, rowProduct, toField_mod27_toNat]

theorem toField_rowProduct_le (a b v0 v1 : Field) : (toField (rowProduct a b v0 v1)).toNat ≤ 26 :=
  toField_le (rowProduct_le a b v0 v1)

/-- R102: the document's branches are those of the residue from the truncated remainder. -/
theorem documentNormalize_eq_mod27 (z : Int) : documentNormalize z = mod27 z := by
  simp only [mod27_eq_trem, documentNormalize, ← not_le, ite_not]

/-- Settles O34: `MULD`'s sums are not negative, so neither is their truncated remainder. -/
theorem decryptNormalizationIsMod27 : Obligations.DecryptNormalizationIsMod27 :=
  ⟨documentNormalize_eq_mod27, fun _ _ _ _ => ⟨trem_nonneg 27 (by positivity), (documentNormalize_eq_mod27 _).symm⟩⟩

/-! The two commands. -/

/-- A command that in this state can raise one error and no other raises it. -/
theorem exec_raises_of_canRaise_iff {i : Instr} {e : EngineError} {s : State} (hr : Ready s)
    (hc : ∀ e', CanRaise e' i s ↔ e' = e) : ∃ t, exec i s = .next t ∧ RaisesError (errorCode e) (encode i) s t := by
  obtain ⟨t, ht, ⟨-, hno⟩ | ⟨e', he', hraise⟩⟩ := exec_ready_or_raises i hr
  · exact absurd ((hc e).2 rfl) (hno e)
  · exact ⟨t, ht, (hc e').1 he' ▸ hraise⟩

/-! A command that tests a flag and then two values (R100, R101). -/

section
variable {i : Instr} {f : EngineError} {flag : Prop} {v0 v1 : Field} {s : State} (hr : Ready s)
  (hc : ∀ e, CanRaise e i s ↔ (e = f ∧ ¬ flag) ∨ (e = .invalidValue ∧ flag ∧ ¬ (v0.toNat ≤ 26 ∧ v1.toNat ≤ 26)))
include hr hc

theorem exec_raises_of_flag_clear (hf : ¬ flag) : ∃ t, exec i s = .next t ∧ RaisesError (errorCode f) (encode i) s t :=
  exec_raises_of_canRaise_iff hr fun e => by simp [hc, hf]

theorem exec_raises_of_operand (hf : flag) (hv : 26 < v0.toNat ∨ 26 < v1.toNat) :
    ∃ t, exec i s = .next t ∧ RaisesError 2 (encode i) s t := by
  have hn : ¬ (v0.toNat ≤ 26 ∧ v1.toNat ≤ 26) := by omega
  exact exec_raises_of_canRaise_iff (e := .invalidValue) hr fun e => (hc e).trans (by tauto)

end

/-- Settles O32: with no error pending `MULE` ends as `multiplied` by the key, or raises what `CanRaise` lists for it. -/
theorem muleMultipliesByTheKey : Obligations.MuleMultipliesByTheKey := by
  refine fun v0 v1 s => ⟨rfl, fun hr hk h0 h1 => ?multiplied, fun hr hk => ?flag, fun hr hk hv => ?operand,
    fun hp => gated_pending s _ hp⟩
  case multiplied =>
    exact ⟨_, exec_mule_of_ready hr ⟨h0, h1⟩ hk, rfl, toField_rowProduct_toNat .., toField_rowProduct_toNat ..,
      responds_multiplied ..⟩
  case flag => exact exec_raises_of_flag_clear hr (f := .keyNotValidated) (fun _ => Iff.rfl) hk
  case operand => exact exec_raises_of_operand hr (fun _ => Iff.rfl) hk hv

/-- Settles O33: `MULD` has the form of `MULE`, by the inverse matrix and with the flag `IV`. -/
theorem muldMultipliesByTheInverse : Obligations.MuldMultipliesByTheInverse := by
  refine fun v0 v1 s => ⟨rfl, fun hr hi h0 h1 => ?multiplied, fun hr hi => ?flag, fun hr hi hv => ?operand,
    fun hp => gated_pending s _ hp⟩
  case multiplied =>
    exact ⟨_, exec_muld_of_ready hr ⟨h0, h1⟩ hi, rfl, toField_rowProduct_toNat .., toField_rowProduct_toNat ..,
      responds_multiplied ..⟩
  case flag => exact exec_raises_of_flag_clear hr (f := .inverseNotReady) (fun _ => Iff.rfl) hi
  case operand => exact exec_raises_of_operand hr (fun _ => Iff.rfl) hi hv

/-! The round trip. -/

/-- `[[a, b], [c, d]]` times `[[p, q], [r, t]]` is the identity modulo 27. -/
def ProductIsIdentity (a b c d p q r t : Field) : Prop :=
  (a.toNat * p.toNat + b.toNat * r.toNat) % 27 = 1 ∧ (a.toNat * q.toNat + b.toNat * t.toNat) % 27 = 0 ∧
  (c.toNat * p.toNat + d.toNat * r.toNat) % 27 = 0 ∧ (c.toNat * q.toNat + d.toNat * t.toNat) % 27 = 1

/-- R26 (c), as one product for each order. -/
theorem inverseOfKey_iff (s : State) : InverseOfKey s ↔
    ProductIsIdentity s.k00 s.k01 s.k10 s.k11 s.i00 s.i01 s.i10 s.i11 ∧
      ProductIsIdentity s.i00 s.i01 s.i10 s.i11 s.k00 s.k01 s.k10 s.k11 := by
  simp only [InverseOfKey, ProductIsIdentity, and_assoc]

/-- A row times a matrix-vector product is the row times the matrix, times the vector. -/
theorem rowProduct_rowProduct (a b p q r t v0 v1 : Field) :
    rowProduct a b (toField (rowProduct p q v0 v1)) (toField (rowProduct r t v0 v1)) =
      (v0.toNat * ((a.toNat * p.toNat + b.toNat * r.toNat) % 27) +
        v1.toNat * ((a.toNat * q.toNat + b.toNat * t.toNat) % 27)) % 27 := by
  calc rowProduct a b (toField (rowProduct p q v0 v1)) (toField (rowProduct r t v0 v1))
    _ = mod27 (a.toNat * (p.toNat * v0.toNat + q.toNat * v1.toNat) + b.toNat * (r.toNat * v0.toNat + t.toNat * v1.toNat)) := by
      rw [rowProduct_eq, rowProduct, rowProduct, toField_mod27_toNat, toField_mod27_toNat, add_mul_mod27]
    _ = mod27 (v0.toNat * (a.toNat * p.toNat + b.toNat * r.toNat : Nat) +
        v1.toNat * (a.toNat * q.toNat + b.toNat * t.toNat : Nat)) := by
      push_cast
      ring_nf
    _ = _ := by rw [← add_mul_mod27, mod27_nat, mod27_nat]

/-- A legal value is its own residue. -/
theorem toField_mod_27_of_legal {v : Field} (hv : v.toNat ≤ 26) : toField (v.toNat % 27) = v :=
  BitVec.eq_of_toNat_eq (by rw [toField_toNat _ (by omega)]; omega)

section
variable {a b c d p q r t v0 v1 : Field}
  (h : ProductIsIdentity a b c d p q r t) (h0 : v0.toNat ≤ 26) (h1 : v1.toNat ≤ 26)
include h h0 h1

/-- The vector comes back: its components are the rows of the identity times it. -/
theorem toField_rowProduct_rowProduct :
    toField (rowProduct a b (toField (rowProduct p q v0 v1)) (toField (rowProduct r t v0 v1))) = v0 ∧
      toField (rowProduct c d (toField (rowProduct p q v0 v1)) (toField (rowProduct r t v0 v1))) = v1 := by
  obtain ⟨h00, h01, h10, h11⟩ := h
  rw [rowProduct_rowProduct, rowProduct_rowProduct, h00, h01, h10, h11]
  simp [toField_mod_27_of_legal, h0, h1]

/-- R103: the second block multiply writes and answers the block the first one took. -/
theorem multiplied_of_product_identity {s u : State}
    (hu : u = multiplied a b c d (toField (rowProduct p q v0 v1)) (toField (rowProduct r t v0 v1)) s) :
    u.out0 = v0 ∧ u.out1 = v1 ∧ Responds s u (0#10 ++ v1 ++ v0) := by
  obtain ⟨e0, e1⟩ := toField_rowProduct_rowProduct h h0 h1
  have hresp := responds_multiplied a b c d (toField (rowProduct p q v0 v1)) (toField (rowProduct r t v0 v1)) s
  rw [blockData, e0, e1, ← hu] at hresp
  exact ⟨hu ▸ e0, hu ▸ e1, hresp⟩

end

/-- Settles O35: by R26 (c) the key and its inverse multiply to the identity in both orders. -/
theorem blockRoundTrip : Obligations.BlockRoundTrip := by
  intro v0 v1 s hinv hr hk hi h0 h1
  obtain ⟨hki, hik⟩ := (inverseOfKey_iff s).1 (((engineInv_iff s).1 hinv).iv_sound hi)
  have hle (a b : Field) := toField_rowProduct_le a b v0 v1
  constructor
  · exact ⟨_, _, exec_mule_of_ready hr ⟨h0, h1⟩ hk, exec_muld_after_multiplied hr ⟨hle _ _, hle _ _⟩ _ _ _ _ _ _ hi,
      multiplied_of_product_identity hik h0 h1 rfl⟩
  · exact ⟨_, _, exec_muld_of_ready hr ⟨h0, h1⟩ hi, exec_mule_after_multiplied hr ⟨hle _ _, hle _ _⟩ _ _ _ _ _ _ hk,
      multiplied_of_product_identity hki h0 h1 rfl⟩

end Sys2Proof.Machine
end

section
/-! SUPPORT. R168: a word that is not `CLRE`, executed with an error pending, only delivers its response, and so does a run of them. -/

namespace Sys2Proof.Machine

/-- R133 over all words: every way a word ends with an error pending, but `CLRE`, writes no register. -/
theorem execWord_pending {w : Word} {s : State} (hp : ¬ Ready s) (hw : decode w ≠ .ok .clre) :
    ∃ d, execWord w s = .next (answerWith d s) := by
  obtain ⟨t, ht, he⟩ := execWord_effect w s
  rw [ht]
  cases he with
  | illegalRefused => exact ⟨0, rfl⟩
  | illegalRaised _ _ hr => exact absurd hr hp
  | command i _ hd he =>
    cases he with
    | refused | nop | read => exact ⟨_, rfl⟩
    | cleared hi => exact absurd (hi ▸ hd) hw
    | raised | loaded | det | valk | modinv | gcd | invk | mule | muld => exact absurd ‹Ready s› hp

/-- Settles O42, by induction on the words: each adds one response, made from the status the run started with. -/
theorem pendingErrorSkipsTheRestOfACall : Obligations.PendingErrorSkipsTheRestOfACall := by
  intro ws s hp hws
  induction ws generalizing s with
  | nil => exact ⟨s, [], rfl, rfl, (List.append_nil _).symm, rfl, nofun⟩
  | cons w ws ih =>
    obtain ⟨hw, hws⟩ := List.forall_mem_cons.1 hws
    obtain ⟨d, hd⟩ := execWord_pending hp hw
    obtain ⟨t, rs, ht, honly, hresp, hlen, hcode⟩ := ih (answerWith d s) hp hws
    refine ⟨t, responseWord s.status d :: rs, by rw [runCommands_cons hd, ht], honly, ?_, congrArg Nat.succ hlen, ?_⟩
    · rw [hresp]
      exact List.append_assoc s.responses [_] rs
    · exact List.forall_mem_cons.2 ⟨responseWord_err s.status d, hcode⟩

end Sys2Proof.Machine
end

section
/-! SUPPORT. R110, R111: the codec. `symbolToValue` and `valueToSymbol` are the two directions of one relation, and so are the maps over
a text. -/

namespace Sys2Proof.Machine

/-! One symbol. -/

theorem symbolToValue_letter {c : Char} (h : 0x61 ≤ c.toNat ∧ c.toNat ≤ 0x7A) :
    symbolToValue c = .ok (BitVec.ofNat 5 (c.toNat - 0x60)) := by
  rw [symbolToValue, if_neg (by omega), if_pos h]

theorem symbolToValue_other {c : Char} (hs : c ≠ ' ') (hl : ¬ (0x61 ≤ c.toNat ∧ c.toNat ≤ 0x7A)) :
    symbolToValue c = .error .invalidSymbol := by
  have h20 : c.toNat ≠ 0x20 := fun h => hs (Char.toNat_inj.1 h)
  rw [symbolToValue, if_neg h20, if_neg hl]

theorem valueToSymbol_letter {n : Field} (h0 : n.toNat ≠ 0) (h : n.toNat ≤ 26) :
    valueToSymbol n = .ok (Char.ofNat (0x60 + n.toNat)) := by
  rw [valueToSymbol, if_neg h0, if_pos h]

theorem valueToSymbol_other {n : Field} (h : 26 < n.toNat) : valueToSymbol n = .error .invalidValue := by
  rw [valueToSymbol, if_neg (by omega), if_neg (by omega)]

/-- The only error of the mapping is `InvalidSymbol`. -/
theorem symbolToValue_eq_error {c : Char} (h : ∀ n, symbolToValue c ≠ .ok n) : symbolToValue c = .error .invalidSymbol :=
  symbolToValue_other (fun hs => h 0 (hs ▸ rfl)) fun hl => h _ (symbolToValue_letter hl)

theorem valueToSymbol_of_symbolToValue {c : Char} {n : Field} (h : symbolToValue c = .ok n) : valueToSymbol n = .ok c := by
  by_cases hs : c = ' '
  · subst hs
    cases h
    rfl
  by_cases hl : 0x61 ≤ c.toNat ∧ c.toNat ≤ 0x7A
  · rw [symbolToValue_letter hl] at h
    cases h
    have hn : (BitVec.ofNat 5 (c.toNat - 0x60)).toNat = c.toNat - 0x60 := toField_toNat _ (by omega)
    rw [valueToSymbol_letter (by omega) (by omega), hn, show 0x60 + (c.toNat - 0x60) = c.toNat by omega, Char.ofNat_toNat]
  · rw [symbolToValue_other hs hl] at h
    cases h

theorem toNat_ofNat_letter {k : Nat} (h : k ≤ 26) : (Char.ofNat (0x60 + k)).toNat = 0x60 + k := by
  rw [Char.toNat_ofNat, if_pos (.inl (by omega))]

theorem symbolToValue_of_valueToSymbol {c : Char} {n : Field} (h : valueToSymbol n = .ok c) : symbolToValue c = .ok n := by
  by_cases hn : n.toNat ≤ 26
  · by_cases h0 : n.toNat = 0
    · obtain rfl : n = 0 := BitVec.eq_of_toNat_eq h0
      cases h
      rfl
    · rw [valueToSymbol_letter h0 hn] at h
      cases h
      have hc := toNat_ofNat_letter hn
      rw [symbolToValue_letter (by omega), hc, Nat.add_sub_cancel_left, BitVec.ofNat_toNat, BitVec.setWidth_eq]
  · rw [valueToSymbol_other (by omega)] at h
    cases h

theorem valueToSymbol_eq_ok_iff (c : Char) (n : Field) : valueToSymbol n = .ok c ↔ symbolToValue c = .ok n :=
  ⟨symbolToValue_of_valueToSymbol, valueToSymbol_of_symbolToValue⟩

/-- The values that have a symbol. -/
theorem exists_valueToSymbol_iff (n : Field) : (∃ c, valueToSymbol n = .ok c) ↔ n.toNat ≤ 26 := by
  constructor
  · rintro ⟨c, hc⟩
    by_contra hn
    rw [valueToSymbol_other (by omega)] at hc
    cases hc
  · intro hn
    by_cases h0 : n.toNat = 0
    · exact ⟨' ', if_pos h0⟩
    · exact ⟨_, valueToSymbol_letter h0 hn⟩

theorem symbolToValue_le {c : Char} {n : Field} (h : symbolToValue c = .ok n) : n.toNat ≤ 26 :=
  (exists_valueToSymbol_iff n).1 ⟨c, valueToSymbol_of_symbolToValue h⟩

/-- Settles O51: the two mappings are one relation, and the table is the mapping run over the letters. -/
theorem codecBijection : Obligations.CodecBijection := by
  refine ⟨by decide, rfl, fun n hn => ?_, fun n => valueToSymbol_other,
    fun c n h => ⟨valueToSymbol_of_symbolToValue h, symbolToValue_le h⟩, fun c => symbolToValue_other⟩
  obtain ⟨c, hc⟩ := (exists_valueToSymbol_iff n).2 hn
  exact ⟨c, hc, symbolToValue_of_valueToSymbol hc⟩

/-! A whole text. -/

theorem symbolsToValues_eq_mapM (t : List Char) : symbolsToValues t = t.mapM symbolToValue := by
  induction t with
  | nil => rfl
  | cons c cs ih =>
    rw [symbolsToValues, List.mapM_cons, ih]
    cases symbolToValue c <;> cases cs.mapM symbolToValue <;> rfl

theorem valuesToSymbols_eq_mapM (vs : List Field) : valuesToSymbols vs = vs.mapM valueToSymbol := by
  induction vs with
  | nil => rfl
  | cons v vs ih =>
    rw [valuesToSymbols, List.mapM_cons, ih]
    cases valueToSymbol v <;> cases vs.mapM valueToSymbol <;> rfl

theorem mapM_eq_ok_iff {α β ε : Type} (f : α → Except ε β) (l : List α) (r : List β) :
    l.mapM f = .ok r ↔ List.Forall₂ (fun a b => f a = .ok b) l r := by
  induction l generalizing r with
  | nil => cases r <;> simp [pure, Except.pure]
  | cons a l ih =>
    rw [List.mapM_cons]
    cases r with
    | nil => cases f a <;> cases l.mapM f <;> simp [bind, Except.bind, pure, Except.pure]
    | cons b r =>
      rw [List.forall₂_cons, ← ih]
      cases f a <;> cases l.mapM f <;> simp [bind, Except.bind, pure, Except.pure]

/-- The text's symbols have these values, one by one. -/
def Encodes : List Char → List Field → Prop := List.Forall₂ fun c v => symbolToValue c = .ok v

theorem symbolsToValues_eq_ok_iff (t : List Char) (vs : List Field) : symbolsToValues t = .ok vs ↔ Encodes t vs := by
  rw [symbolsToValues_eq_mapM, mapM_eq_ok_iff, Encodes]

theorem valuesToSymbols_eq_ok_iff (vs : List Field) (t : List Char) : valuesToSymbols vs = .ok t ↔ Encodes t vs := by
  rw [valuesToSymbols_eq_mapM, mapM_eq_ok_iff]
  simp only [valueToSymbol_eq_ok_iff]
  exact ⟨List.Forall₂.flip, List.Forall₂.flip⟩

theorem exists_forall₂ {α β : Type} {R : α → β → Prop} {l : List α} (h : ∀ a ∈ l, ∃ b, R a b) :
    ∃ r, List.Forall₂ R l r := by
  induction l with
  | nil => exact ⟨[], .nil⟩
  | cons a l ih =>
    obtain ⟨⟨b, hb⟩, hl⟩ := List.forall_mem_cons.1 h
    obtain ⟨r, hr⟩ := ih hl
    exact ⟨b :: r, .cons hb hr⟩

theorem exists_values {t : List Char} (h : ∀ c ∈ t, ∃ n, symbolToValue c = .ok n) : ∃ vs, Encodes t vs := exists_forall₂ h

theorem exists_symbols {vs : List Field} (h : ∀ v ∈ vs, v.toNat ≤ 26) : ∃ t, Encodes t vs := by
  obtain ⟨t, ht⟩ := exists_forall₂ fun v hv => (exists_valueToSymbol_iff v).2 (h v hv)
  exact ⟨t, (ht.imp fun _ _ => symbolToValue_of_valueToSymbol).flip⟩

theorem Encodes.le {t : List Char} {vs : List Field} (h : Encodes t vs) : ∀ v ∈ vs, v.toNat ≤ 26 := by
  induction h with
  | nil => nofun
  | cons hc _ ih => exact List.forall_mem_cons.2 ⟨symbolToValue_le hc, ih⟩

theorem Encodes.length_eq {t : List Char} {vs : List Field} (h : Encodes t vs) : t.length = vs.length :=
  List.Forall₂.length_eq h

/-- U7: one symbol outside the alphabet fails the mapping of the whole text. -/
theorem symbolsToValues_eq_error {t : List Char} (h : ∃ c ∈ t, ∀ n, symbolToValue c ≠ .ok n) :
    symbolsToValues t = .error .invalidSymbol := by
  induction t with
  | nil => simp at h
  | cons c cs ih =>
    rw [symbolsToValues]
    cases hc : symbolToValue c with
    | error e =>
      have he := symbolToValue_eq_error (c := c) fun n hn => nomatch hc.symm.trans hn
      rw [← hc, he]
    | ok v =>
      obtain ⟨x, hx, hbad⟩ := h
      obtain rfl | hx := List.mem_cons.1 hx
      · exact absurd hc (hbad v)
      · rw [ih ⟨x, hx, hbad⟩]

/-! The texts of the two calls. -/

theorem mem_padText {c : Char} {t : List Char} (h : c ∈ t) : c ∈ padText t := by
  unfold padText
  split
  · exact h
  · exact List.mem_append_left _ h

theorem length_padText_even (t : List Char) : (padText t).length % 2 = 0 := by
  unfold padText
  split
  · assumption
  · rw [List.length_append, List.length_singleton]
    omega

theorem padText_symbols {t : List Char} (h : ∀ c ∈ t, ∃ n, symbolToValue c = .ok n) :
    ∀ c ∈ padText t, ∃ n, symbolToValue c = .ok n := by
  unfold padText
  split
  · exact h
  · exact List.forall_mem_append.2 ⟨h, List.forall_mem_singleton.2 ⟨0, rfl⟩⟩

/-- A symbol is no capital letter, so lower-casing keeps it. -/
theorem toLower_of_symbol {c : Char} (h : ∃ n, symbolToValue c = .ok n) : c.toLower = c := by
  refine Char.toLower_eq_of_not_isUpper fun hup => ?_
  obtain ⟨n, hn⟩ := h
  have hup : 0x41 ≤ c.toNat ∧ c.toNat ≤ 0x5A := by
    simpa [Char.isUpper, UInt32.le_iff_toNat_le] using hup
  have hs : c ≠ ' ' := by
    rintro rfl
    exact absurd hup (by decide)
  cases hn.symm.trans (symbolToValue_other hs (by omega))

theorem map_toLower_of_symbols {t : List Char} (h : ∀ c ∈ t, ∃ n, symbolToValue c = .ok n) : t.map Char.toLower = t :=
  (List.map_congr_left fun c hc => toLower_of_symbol (h c hc)).trans (List.map_id' t)

/-- Settles O53: the length is tested first. -/
theorem oddCiphertextIsRefusedByTheHost : Obligations.OddCiphertextIsRefusedByTheHost :=
  fun _ _ hodd => ⟨if_pos (by omega), rfl⟩

/-- Settles O54: the mapping of the whole text, done before the first command, fails on such a symbol and gives no value for the empty
text. -/
theorem textsThatIssueNoCommand : Obligations.TextsThatIssueNoCommand := by
  refine ⟨fun text s hbad => ?encrypt, fun text s heven hbad => ?decrypt, fun s => ⟨rfl, rfl⟩, rfl⟩
  case encrypt =>
    obtain ⟨c, hc, hn⟩ := hbad
    rw [hostEncrypt, symbolsToValues_eq_error ⟨_, mem_padText (List.mem_map_of_mem hc), hn⟩]
  case decrypt =>
    rw [hostDecrypt, if_neg (not_not.2 heven), symbolsToValues_eq_error hbad]

end Sys2Proof.Machine
end

section
/-! SUPPORT. R53: what the host reads out of the answer to a command it issued, and with it the key acceptance of R112. -/

namespace Sys2Proof.Machine

theorem opField_responseWord (st : BitVec 12) (d : Data) : opField (responseWord st d) = statusErr st := responseWord_err st d

theorem operandBits_responseWord (st : BitVec 12) (d : Data) : operandBits (responseWord st d) = d := responseWord_data st d

/-- A field within the low 20 bits of a response is that field of its `DATA`. -/
theorem extract_responseWord (st : BitVec 12) (d : Data) {k n : Nat} (h : k + n ≤ 20) :
    (responseWord st d).extractLsb' k n = d.extractLsb' k n := by
  conv_rhs => rw [← responseWord_data st d, BitVec.extractLsb'_extractLsb'_of_le h]

theorem field0_blockData (st : BitVec 12) (a b c d v0 v1 : Field) :
    field0 (responseWord st (blockData a b c d v0 v1)) = toField (rowProduct a b v0 v1) :=
  (extract_responseWord st _ (by omega)).trans BitVec.extractLsb'_append_eq_right

theorem field1_blockData (st : BitVec 12) (a b c d v0 v1 : Field) :
    field1 (responseWord st (blockData a b c d v0 v1)) = toField (rowProduct c d v0 v1) := by
  rw [field1, extract_responseWord st _ (by omega), blockData, BitVec.extractLsb'_append_eq_of_le (by omega)]
  exact BitVec.extractLsb'_append_eq_right

/-- The host's view of a command that ended with `DATA = d` over the writes `s'`. -/
theorem answer_encode {i : Instr} {d : Data} {s s' : State} (h : exec i s = .next (answerWith d s')) :
    answer (encode i) s = (responseWord s'.status d, answerWith d s') := by
  rw [answer, execWord_of_decode (decode_encode i), h]
  simp [answerWith]

/-! `LDK` and `VALK` (R112). -/

/-- The state after a successful `LDK`, its response delivered. -/
def keyLoaded (a b c d : Field) (s : State) : State :=
  answerWith 0
    { s with
      k00 := a, k01 := b, k10 := c, k11 := d, i00 := 0, i01 := 0, i10 := 0, i11 := 0
      status := statusSetIv false (statusSetKv false s.status) }

theorem ready_keyLoaded {s : State} (hr : Ready s) (a b c d : Field) : Ready (keyLoaded a b c d s) := by
  simpa [keyLoaded, ready_iff] using hr

theorem answer_ldk_of_legal {a b c d : Field} {s : State} (hr : Ready s)
    (hv : a.toNat ≤ 26 ∧ b.toNat ≤ 26 ∧ c.toNat ≤ 26 ∧ d.toNat ≤ 26) :
    answer (encode (.ldk a b c d)) s = (responseWord (keyLoaded a b c d s).status 0, keyLoaded a b c d s) :=
  answer_encode (exec_ldk_of_legal hr hv)

theorem ready_validated {s : State} (hr : Ready s) : Ready (validated s) := (statusErr_setKv _ _).trans hr

theorem answer_valk_of_ready {s : State} (hr : Ready s) :
    answer (encode .valk) s =
      (responseWord (validated s).status (if Int.gcd (keyDet s % 27) 27 = 1 then 1 else 0), validated s) :=
  answer_encode (exec_valk_of_ready hr)

/-- R112: both commands succeed, so the answer is `VALK`'s on the key just loaded. -/
theorem hostAcceptKey_of_legal {a b c d : Field} {s : State} (hr : Ready s)
    (hv : a.toNat ≤ 26 ∧ b.toNat ≤ 26 ∧ c.toNat ≤ 26 ∧ d.toNat ≤ 26) :
    hostAcceptKey a b c d s =
      (.ok (decide (Int.gcd (keyDet (keyLoaded a b c d s) % 27) 27 = 1)), validated (keyLoaded a b c d s)) := by
  have hl := ready_keyLoaded hr a b c d
  have hdata (p : Prop) [Decidable p] : ((if p then 1 else 0 : Data) == 1) = decide p := by split <;> simp [*]
  simp only [hostAcceptKey, answer_ldk_of_legal hr hv, answer_valk_of_ready hl, opField_responseWord,
    (ready_iff _).1 hl, (ready_iff _).1 (ready_validated hl), operandBits_responseWord, hdata, ne_eq, not_true_eq_false,
    if_false]

/-- Settles O56: the answer and `KV` are both the test of `VALK` on the loaded key. -/
theorem hostAcceptsExactlyValidKeys : Obligations.HostAcceptsExactlyValidKeys := by
  intro a b c d s hr ha hb hc hd
  refine ⟨_, _, hostAcceptKey_of_legal hr ⟨ha, hb, hc, hd⟩, rfl, rfl, rfl, rfl, decide_eq_true_iff, ?_⟩
  rw [keyValidated_validated, decide_eq_true_iff]

end Sys2Proof.Machine
end

section
/-! SUPPORT. R118: a call that fails leaves the registers as they were, because the host clears the error it reports. -/

namespace Sys2Proof.Machine

/-- The later error record replaces the earlier one. -/
theorem statusSetError_statusSetError (e o e' o' : BitVec 4) (st : BitVec 12) :
    statusSetError e' o' (statusSetError e o st) = statusSetError e' o' st := by
  rw [statusSetError, setError_bits e o st 4 4 (by omega), ← statusSetError]

/-- An error raised in a clean state and then cleared leaves that state, but for the responses. -/
theorem onlyAnswered_clre_of_raised (e : EngineError) (cmd : Word) {s : State} (h : EngineInv s) (hr : Ready s) :
    OnlyAnswered s (answer (encode .clre) (answerWith 0 (recordError e cmd s))).2 := by
  have hclear : clearError (recordError e cmd s) = s := by
    rw [recordError_ready e cmd hr, clearError, statusSetError_statusSetError]
    exact clearError_of_ready h hr
  have honly : OnlyAnswered (clearError (recordError e cmd s))
      (answer (encode .clre) (answerWith 0 (recordError e cmd s))).2 := by
    rw [answer_encode (i := .clre) rfl]
    rfl
  rwa [hclear] at honly

/-- R100 with `KV` = 0, whatever the operands. -/
theorem exec_mule_of_unvalidated {s : State} (hr : Ready s) (hk : ¬ KeyValidated s) (v0 v1 : Field) :
    exec (.mule v0 v1) s = raise .keyNotValidated (encode (.mule v0 v1)) s := by
  rw [exec, execMule, gated_ready s _ hr, if_neg (by rwa [keyValidated_iff] at hk)]

/-- R113, R118: the first block's `MULE` fails, and the call with it. -/
theorem issueText_mule_of_unvalidated {s : State} (hr : Ready s) (hk : ¬ KeyValidated s) (v0 v1 : Field) (vs : List Field) :
    issueText .mule (v0 :: v1 :: vs) s = (.error (.engine 6),
      (answer (encode .clre) (answerWith 0 (recordError .keyNotValidated (encode (.mule v0 v1)) s))).2) := by
  have hans : answer (encode (.mule v0 v1)) s = _ := answer_encode ((exec_mule_of_unvalidated hr hk v0 v1).trans rfl)
  have hcode (d : Data) : opField (responseWord (recordError .keyNotValidated (encode (.mule v0 v1)) s).status d) = 6 := by
    rw [opField_responseWord, recordError_status _ _ hr, statusErr_setError]
    rfl
  have hne : (6 : BitVec 4) ≠ 0#4 := by decide
  rw [issueText, issueBlocks, hans]
  simp only [hcode, if_pos hne, failCall]

/-- R113: the values a text over the alphabet is encrypted from. -/
theorem hostEncrypt_of_symbols {t : List Char} (h : ∀ c ∈ t, ∃ n, symbolToValue c = .ok n) :
    ∃ vs, Encodes (padText t) vs ∧ ∀ s, hostEncrypt t s = issueText .mule vs s := by
  obtain ⟨vs, hvs⟩ := exists_values (padText_symbols h)
  refine ⟨vs, hvs, fun s => ?_⟩
  rw [hostEncrypt, map_toLower_of_symbols h, (symbolsToValues_eq_ok_iff _ vs).2 hvs]

/-- Settles O55: a text that is not empty has a first block. -/
theorem encryptOnUnvalidatedKeyFails : Obligations.EncryptOnUnvalidatedKeyFails := by
  intro text s h hr hk hne hsym
  obtain ⟨vs, hvs, henc⟩ := hostEncrypt_of_symbols hsym
  have hlen := hvs.length_eq
  have heven := length_padText_even text
  obtain ⟨c, hc⟩ := List.exists_mem_of_ne_nil text hne
  have hpos := List.length_pos_of_mem (mem_padText hc)
  match vs with
  | [] | [_] =>
    simp only [List.length_cons, List.length_nil] at hlen
    omega
  | v0 :: v1 :: vs =>
    rw [henc, issueText_mule_of_unvalidated hr hk]
    exact ⟨_, rfl, onlyAnswered_clre_of_raised _ _ h hr⟩

end Sys2Proof.Machine
end

section
/-! SUPPORT. R113, R115: the blocks of a text. A call whose every block succeeds gives the text's values multiplied block by block, and
two such calls with inverse matrices give the values back. -/

namespace Sys2Proof.Machine

/-- Multiply each pair of values by `[[a, b], [c, d]]` (R104). -/
def multiplyValues (a b c d : Field) : List Field → List Field
  | v0 :: v1 :: vs => toField (rowProduct a b v0 v1) :: toField (rowProduct c d v0 v1) :: multiplyValues a b c d vs
  | [_] => []
  | [] => []

theorem multiplyValues_le (a b c d : Field) (vs : List Field) : ∀ v ∈ multiplyValues a b c d vs, v.toNat ≤ 26 := by
  induction vs using multiplyValues.induct with
  | case1 v0 v1 vs ih =>
    exact List.forall_mem_cons.2 ⟨toField_rowProduct_le .., List.forall_mem_cons.2 ⟨toField_rowProduct_le .., ih⟩⟩
  | case2 | case3 => nofun

theorem length_multiplyValues (a b c d : Field) {vs : List Field} (h : vs.length % 2 = 0) :
    (multiplyValues a b c d vs).length = vs.length := by
  induction vs using multiplyValues.induct with
  | case1 v0 v1 vs ih =>
    simp only [List.length_cons] at h
    simp only [multiplyValues, List.length_cons, ih (by omega)]
  | case2 => cases h
  | case3 => rfl

/-- R103 over a text: inverse matrices undo each other block by block. -/
theorem multiplyValues_multiplyValues {a b c d p q r t : Field} (h : ProductIsIdentity a b c d p q r t) {vs : List Field}
    (hlen : vs.length % 2 = 0) (hvs : ∀ v ∈ vs, v.toNat ≤ 26) :
    multiplyValues a b c d (multiplyValues p q r t vs) = vs := by
  induction vs using multiplyValues.induct with
  | case1 v0 v1 vs ih =>
    simp only [List.length_cons] at hlen
    obtain ⟨h0, h1, hvs⟩ : v0.toNat ≤ 26 ∧ v1.toNat ≤ 26 ∧ ∀ v ∈ vs, v.toNat ≤ 26 := by simpa using hvs
    obtain ⟨e0, e1⟩ := toField_rowProduct_rowProduct h h0 h1
    rw [multiplyValues, multiplyValues, e0, e1, ih (by omega) hvs]
  | case2 => cases hlen
  | case3 => rfl

/-- From `s` to `t` only block multiplies were done: their outputs and their responses are all that is new. -/
def SameButOutputs (s t : State) : Prop := ∃ o0 o1 rs, t = { s with out0 := o0, out1 := o1, responses := rs }

theorem sameButOutputs_refl (s : State) : SameButOutputs s s := ⟨_, _, _, rfl⟩

theorem sameButOutputs_multiplied {s u : State} (h : SameButOutputs s u) (a b c d v0 v1 : Field) :
    SameButOutputs s (multiplied a b c d v0 v1 u) := by
  obtain ⟨o0, o1, rs, rfl⟩ := h
  exact ⟨_, _, _, rfl⟩

theorem ready_of_sameButOutputs {s t : State} (h : SameButOutputs s t) (hr : Ready s) : Ready t := by
  obtain ⟨o0, o1, rs, rfl⟩ := h
  exact hr

/-- From `s` on, `block` multiplies every legal block by `[[a, b], [c, d]]`. -/
def MultipliesBlocks (block : Field → Field → Instr) (a b c d : Field) (s : State) : Prop :=
  ∀ v0 v1 u, SameButOutputs s u → v0.toNat ≤ 26 ∧ v1.toNat ≤ 26 → exec (block v0 v1) u = .next (multiplied a b c d v0 v1 u)

theorem mule_multipliesBlocks {s : State} (hr : Ready s) (hk : KeyValidated s) :
    MultipliesBlocks .mule s.k00 s.k01 s.k10 s.k11 s := by
  rintro v0 v1 _ ⟨o0, o1, rs, rfl⟩ hv
  exact exec_mule_of_ready hr hv hk

theorem muld_multipliesBlocks {s : State} (hr : Ready s) (hi : InverseValid s) :
    MultipliesBlocks .muld s.i00 s.i01 s.i10 s.i11 s := by
  rintro v0 v1 _ ⟨o0, o1, rs, rfl⟩ hv
  exact exec_muld_of_ready hr hv hi

section
variable {block : Field → Field → Instr} {a b c d : Field} {s : State} (hr : Ready s) (hm : MultipliesBlocks block a b c d s)
  {vs : List Field} (hvs : ∀ v ∈ vs, v.toNat ≤ 26)
include hr hm hvs

/-- No block of the call fails, so all are issued. -/
theorem issueBlocks_of_multipliesBlocks {u : State} (hu : SameButOutputs s u) :
    ∃ t, issueBlocks block vs u = (.ok (multiplyValues a b c d vs), t) ∧ SameButOutputs s t := by
  induction vs using multiplyValues.induct generalizing u with
  | case1 v0 v1 vs ih =>
    obtain ⟨h0, h1, hvs⟩ : v0.toNat ≤ 26 ∧ v1.toNat ≤ 26 ∧ ∀ v ∈ vs, v.toNat ≤ 26 := by simpa using hvs
    obtain ⟨t, ht, hst⟩ := ih hvs (sameButOutputs_multiplied hu a b c d v0 v1)
    have hans : answer (encode (block v0 v1)) u =
        (responseWord u.status (blockData a b c d v0 v1), multiplied a b c d v0 v1 u) :=
      answer_encode (hm v0 v1 u hu ⟨h0, h1⟩)
    have hcode : opField (responseWord u.status (blockData a b c d v0 v1)) = 0#4 :=
      (opField_responseWord _ _).trans (ready_of_sameButOutputs hu hr)
    refine ⟨t, ?_, hst⟩
    rw [issueBlocks, hans]
    simp only [hcode, ne_eq, not_true_eq_false, if_false, ht, field0_blockData, field1_blockData, multiplyValues]
  | case2 | case3 => exact ⟨u, rfl, hu⟩

/-- R113 step 4, R115 step 2. -/
theorem issueText_of_multipliesBlocks :
    ∃ t, issueText block vs s = (valuesToSymbols (multiplyValues a b c d vs), t) ∧ SameButOutputs s t := by
  obtain ⟨t, ht, hst⟩ := issueBlocks_of_multipliesBlocks hr hm hvs (sameButOutputs_refl s)
  exact ⟨t, by rw [issueText, ht], hst⟩

end

/-- R115 on a key that has an inverse: the values of the text, multiplied by what `INVK` wrote. -/
theorem hostDecrypt_of_invertible {t : List Char} {vs : List Field} (ht : Encodes t vs) (heven : t.length % 2 = 0) {s : State}
    (hr : Ready s) {x : Nat} (hx : modinv27 (mod27 (keyDeterminant s)) = some x) :
    ∃ u, hostDecrypt t s = (valuesToSymbols (multiplyValues (inverted x s).i00 (inverted x s).i01 (inverted x s).i10
      (inverted x s).i11 vs), u) := by
  have hans : answer (encode .invk) s = (responseWord (inverted x s).status _, inverted x s) :=
    answer_encode (exec_invk_of_some hr hx)
  have hcode (d : Data) : opField (responseWord (inverted x s).status d) = 0#4 :=
    (opField_responseWord _ _).trans (ready_inverted hr x)
  rw [hostDecrypt, if_neg (not_not.2 heven), (symbolsToValues_eq_ok_iff t vs).2 ht]
  cases vs with
  | nil => exact ⟨s, rfl⟩
  | cons v vs =>
    have hready := ready_inverted hr x
    obtain ⟨u, hu, -⟩ :=
      issueText_of_multipliesBlocks hready (muld_multipliesBlocks hready (statusIv_setIv true s.status)) ht.le
    refine ⟨u, ?_⟩
    simp only [hans, hcode, ne_eq, not_true_eq_false, if_false, hu]

/-- Settles O52: `MULE` and `MULD` multiply the padded text's values by the key and by its inverse. The key registers are the same before
`encrypt` and after it, so `INVK` inverts the matrix that encrypted. -/
theorem textRoundTrip : Obligations.TextRoundTrip := by
  intro text s hinv hr hk hsym
  obtain ⟨vs, hvs, henc⟩ := hostEncrypt_of_symbols hsym
  have heven : vs.length % 2 = 0 := hvs.length_eq ▸ length_padText_even text
  obtain ⟨_, ht, o0, o1, rs, rfl⟩ := issueText_of_multipliesBlocks hr (mule_multipliesBlocks hr hk) hvs.le
  obtain ⟨cipher, hcipher⟩ := exists_symbols (multiplyValues_le s.k00 s.k01 s.k10 s.k11 vs)
  have hlen : cipher.length = vs.length := hcipher.length_eq.trans (length_multiplyValues _ _ _ _ heven)
  obtain ⟨x, hx⟩ : ∃ x, modinv27 (mod27 (keyDeterminant s)) = some x := by
    rw [exists_modinv27_iff, ← euclid_eq, euclid_mod27]
    exact ((engineInv_iff s).1 hinv).kv_sound hk
  obtain ⟨u, hu⟩ := hostDecrypt_of_invertible hcipher (hlen ▸ heven)
    (s := { s with out0 := o0, out1 := o1, responses := rs }) hr hx
  obtain ⟨-, hid⟩ := (inverseOfKey_iff _).1 (inverseOfKey_inverted hx)
  refine ⟨cipher, _, u, ?_, ?_, ?_, hu.trans ?_⟩
  · rw [henc, ht, (valuesToSymbols_eq_ok_iff _ _).2 hcipher]
  · rw [hlen, hvs.length_eq]
  · rw [hlen, heven]
  · rw [← (valuesToSymbols_eq_ok_iff _ _).2 hvs]
    exact congrArg (fun ws => (valuesToSymbols ws, u)) (multiplyValues_multiplyValues hid heven hvs.le)

end Sys2Proof.Machine
end

section
/-! SUPPORT. R131 to R135: which errors a word can raise, what a raised error leaves unchanged, what the gate refuses while it is pending,
and that `CLRE` takes it back. -/

namespace Sys2Proof.Machine

/-! A raised error (R130 to R132). -/

/-- R130: the codes of the errors the engine raises. -/
theorem errorCode_mem (e : EngineError) : errorCode e ∈ [2#4, 3#4, 5#4, 6#4, 7#4] := by cases e <;> decide

/-- R131 for words: a command can raise what `CanRaise` lists for it, an illegal word `IllegalCommand`. -/
def WordCanRaise (e : EngineError) (w : Word) (s : State) : Prop :=
  match decode w with
  | .ok i => CanRaise e i s
  | .error _ => e = .illegalCommand

theorem wordCanRaise_of_decode {w : Word} {i : Instr} (hd : decode w = .ok i) (e : EngineError) (s : State) :
    WordCanRaise e w s ↔ CanRaise e i s := by
  rw [WordCanRaise, hd]

theorem wordCanRaise_of_illegal {w : Word} {x : Illegal} (hd : decode w = .error x) (e : EngineError) (s : State) :
    WordCanRaise e w s ↔ e = .illegalCommand := by
  rw [WordCanRaise, hd]

/-- R55 with no error pending. -/
theorem execWord_raises_of_illegal {w : Word} {x : Illegal} {s : State} (hd : decode w = .error x) (hr : Ready s) :
    ∃ t, execWord w s = .next t ∧ RaisesError (errorCode .illegalCommand) w s t := by
  obtain ⟨-, hraise, -⟩ := illegalWordsAndTheirEffect
  exact hraise w x s hd hr

/-- A word that leaves an error pending where none was raised it, and is one that can. -/
theorem raisesError_of_execWord {w : Word} {s t : State} (hr : Ready s) (ht : execWord w s = .next t) (hn : ¬ Ready t) :
    ∃ e, RaisesError (errorCode e) w s t ∧ WordCanRaise e w s := by
  cases hd : decode w with
  | error x =>
    obtain ⟨u, hu, hraise⟩ := execWord_raises_of_illegal hd hr
    obtain rfl := next_inj (hu.symm.trans ht)
    exact ⟨.illegalCommand, hraise, (wordCanRaise_of_illegal hd _ s).2 rfl⟩
  | ok i =>
    obtain ⟨u, hu, hend⟩ := exec_ready_or_raises i hr
    obtain rfl := next_inj ((execWord_of_decode hd s ▸ hu).symm.trans ht)
    obtain ⟨hready, -⟩ | ⟨e, hc, hraise⟩ := hend
    · exact absurd hready hn
    · exact ⟨e, encode_of_decode hd ▸ hraise, (wordCanRaise_of_decode hd e s).2 hc⟩

/-- Settles O37: `raise` with an error pending and without. -/
theorem raiseRecordsTheFirstError : Obligations.RaiseRecordsTheFirstError := by
  intro e cmd s
  by_cases hr : Ready s
  · obtain ⟨t, ht, hraise⟩ := raise_ready e cmd s hr
    exact ⟨t, ht, fun _ => hraise, fun hp => absurd hr hp⟩
  · obtain ⟨t, ht, href⟩ := raise_pending e cmd s hr
    exact ⟨t, ht, fun h => absurd h hr, fun _ => href⟩

/-- Settles O39: `WordCanRaise`, command by command. -/
theorem errorsOfEachCommand : Obligations.ErrorsOfEachCommand := by
  intro w s t hr ht hn
  obtain ⟨e, hraise, hcan⟩ := raisesError_of_execWord hr ht hn
  refine ⟨errorCode e, hraise, ?_⟩
  cases hd : decode w with
  | error x =>
    obtain rfl := (wordCanRaise_of_illegal hd e s).1 hcan
    rfl
  | ok i =>
    have hc : CanRaise e i s := (wordCanRaise_of_decode hd e s).1 hcan
    cases i with
    | nop | clre | det | valk | gcd => exact hc
    | rdr r | modinv a | invk =>
      obtain ⟨rfl, h⟩ := hc
      simp [errorCode, h]
    | ldk a b c d =>
      obtain ⟨rfl, hv⟩ := hc
      exact ⟨rfl, by omega⟩
    | mule v0 v1 | muld v0 v1 =>
      exact hc.imp (fun ⟨he, hf⟩ => ⟨congrArg errorCode he, hf⟩) (fun ⟨he, hf, _⟩ => ⟨congrArg errorCode he, hf⟩)

/-! While an error is pending (R133, R134). -/

/-- No word but `CLRE` changes a register while an error is pending. -/
theorem onlyAnswered_of_pending {w : Word} {s t : State} (hp : ¬ Ready s) (ht : execWord w s = .next t)
    (hw : decode w ≠ .ok .clre) : OnlyAnswered s t := by
  obtain ⟨d, hd⟩ := execWord_pending hp hw
  obtain rfl := next_inj (hd.symm.trans ht)
  exact onlyAnswered_answerWith d s

/-- Settles O38: a word raises its error where none is pending, and `CLRE`, which leaves none pending, is the only word that changes a
register where one is. -/
theorem errorsArePrecise : Obligations.ErrorsArePrecise := by
  refine fun w s t ht hn => ⟨fun hr => ?raised, fun hp => ?pending⟩
  case raised =>
    obtain ⟨e, hraise, -⟩ := raisesError_of_execWord hr ht hn
    exact ⟨errorCode e, errorCode_mem e, hraise⟩
  case pending =>
    have hw : decode w ≠ .ok .clre := fun hd => by
      obtain rfl := next_inj ((execWord_of_decode hd s).symm.trans ht)
      exact hn (statusErr_setError 0 0 s.status)
    exact onlyAnswered_of_pending hp ht hw

/-- R133: a word of no exempt command is refused. -/
theorem execWord_refused {w : Word} {s : State} (hp : ¬ Ready s) (hnop : decode w ≠ .ok .nop)
    (hrdr : ∀ r, decode w ≠ .ok (.rdr r)) (hclre : decode w ≠ .ok .clre) :
    ∃ t, execWord w s = .next t ∧ RefusedByGate s t := by
  cases hd : decode w with
  | error x =>
    rw [execWord_of_illegal hd]
    exact gated_pending s _ hp
  | ok i =>
    rw [execWord_of_decode hd]
    cases i with
    | nop => exact absurd hd hnop
    | rdr r => exact absurd hd (hrdr r)
    | clre => exact absurd hd hclre
    | ldk | det | valk | modinv | gcd | invk | mule | muld => exact gated_pending s _ hp

/-- Settles O40: `execWord_refused`, and the exempt commands answer without asking the gate. -/
theorem pendingErrorGatesCommands : Obligations.PendingErrorGatesCommands := by
  refine ⟨fun w s => execWord_refused, fun s r _ hindex => ⟨?nop, ?rdr, ?clre⟩⟩
  case nop => exact respond_spec 0 s s rfl
  case rdr =>
    have hsome : regOfIndex r ≠ none := mt (regOfIndex_eq_none r).1 (by omega)
    obtain ⟨reg, hreg⟩ := Option.ne_none_iff_exists'.1 hsome
    obtain ⟨t, ht, hresp⟩ := respond_spec (readReg reg s) s s rfl
    exact ⟨t, reg, hreg, (exec_rdr_of_index hreg s).trans ht, hresp⟩
  case clre => exact ⟨_, rfl, statusErr_setError 0 0 s.status⟩

/-- Settles O9: a flag that is 0 is the first condition of `CanRaise`, whatever the operands. -/
theorem commonEntrySequence : Obligations.CommonEntrySequence := by
  refine ⟨fun w s => execWord_refused, fun w x s hr hd => execWord_raises_of_illegal hd hr,
    fun w i s hd _ => execWord_of_decode hd s, fun v0 v1 s hr hk => ?mule, fun v0 v1 s hr hi => ?muld⟩
  case mule => exact exec_raises_of_flag_clear hr (f := .keyNotValidated) (fun _ => Iff.rfl) hk
  case muld => exact exec_raises_of_flag_clear hr (f := .inverseNotReady) (fun _ => Iff.rfl) hi

/-! After `CLRE` (R135). -/

/-- `CLRE` overwrites all a raised error wrote. -/
theorem clearError_of_raisesError {code : BitVec 4} {cmd : Word} {s t : State} (h : RaisesError code cmd s t) :
    clearError t = { clearError s with responses := t.responses } := by
  obtain ⟨hframe, -, hflags, -⟩ := h
  have hst : statusSetError 0 0 t.status = statusSetError 0 0 s.status := by
    rw [statusSetError, hflags, ← statusSetError]
  rw [clearError, hst, hframe]
  rfl

/-- Settles O41: `CLRE` overwrites the error record, and by R26 (d) the record it overwrites it with is the one before the failing word. -/
theorem clreUndoesAFailingCommand : Obligations.ClreUndoesAFailingCommand := by
  refine ⟨fun w s t hinv hr ht hn => ?undone, fun w s t hp ht hw => onlyAnswered_of_pending hp ht hw, fun s => ?reset⟩
  case undone =>
    obtain ⟨e, hraise, -⟩ := raisesError_of_execWord hr ht hn
    refine ⟨answerWith 0 (clearError t), rfl, ?_⟩
    rw [clearError_of_raisesError hraise, clearError_of_ready hinv hr]
    rfl
  case reset => exact statusErr_setError 0 0 0

/-! A step (R134, R22, R142). -/

/-- Settles O8: `step_of_command`, and the offered word is the host's next event. -/
theorem stepRunsTheDecodedCommand : Obligations.StepRunsTheDecodedCommand := by
  refine ⟨fun s w rest i hin hd => ?decoded, fun s w rest x hin hd => ?illegal, fun s nbits w => ?offered⟩
  case decoded => exact (step_of_command hin).trans (execWord_of_decode hd _)
  case illegal => exact (step_of_command hin).trans (execWord_of_illegal hd _)
  case offered => exact step_of_command rfl

/-- Settles O10: `step_of_no_input`. -/
theorem idleEngineKeepsItsState : Obligations.IdleEngineKeepsItsState := fun _ => step_of_no_input

end Sys2Proof.Machine
end

section
/-! SUPPORT. R164: `LDK` that leaves no error pending loaded its key, and a loaded key has both flags 0, whatever the key before it. -/

namespace Sys2Proof.Machine

/-- The inversion of a successful `LDK` (R70). -/
theorem eq_keyLoaded_of_exec_ldk {a b c d : Field} {s t : State} (hr : Ready s) (ht : exec (.ldk a b c d) s = .next t)
    (hready : Ready t) : t = keyLoaded a b c d s := by
  by_cases hv : a.toNat ≤ 26 ∧ b.toNat ≤ 26 ∧ c.toNat ≤ 26 ∧ d.toNat ≤ 26
  · exact next_inj (ht.symm.trans (exec_ldk_of_legal hr hv))
  · obtain ⟨u, hu, hraise⟩ := raise_ready .invalidValue (encode (.ldk a b c d)) s hr
    rw [← exec_ldk_of_illegal hr (by omega), ht] at hu
    exact absurd (next_inj hu ▸ hready) (not_ready_of_raises hraise)

theorem not_keyValidated_keyLoaded (a b c d : Field) (s : State) : ¬ KeyValidated (keyLoaded a b c d s) := by
  simp [keyLoaded, keyValidated_iff]

theorem not_inverseValid_keyLoaded (a b c d : Field) (s : State) : ¬ InverseValid (keyLoaded a b c d s) := by
  simp [keyLoaded, inverseValid_iff]

/-- Settles O45: both flags are 0 after the `LDK`, and each block command tests its flag before its operands. -/
theorem ldkInvalidatesKeyAndInverse : Obligations.LdkInvalidatesKeyAndInverse := by
  intro a b c d v0 v1 s t hr ht hready
  obtain rfl := eq_keyLoaded_of_exec_ldk hr ht hready
  constructor
  · exact exec_raises_of_flag_clear hready (f := .keyNotValidated) (fun _ => Iff.rfl) (not_keyValidated_keyLoaded a b c d s)
  · exact exec_raises_of_flag_clear hready (f := .inverseNotReady) (fun _ => Iff.rfl) (not_inverseValid_keyLoaded a b c d s)

end Sys2Proof.Machine
end

section
/-! SUPPORT. R136, R162: a command that leaves no error pending answered `ERR` = 0, and successes compose. `DKEY` of a valid key leaves
both flags 1, and blocks leave the flags and the key to the commands after them. -/

namespace Sys2Proof.Machine

/-- These commands lead from `s` to `t`, and each of their responses has `ERR` = 0 (R136). -/
def SucceedsTo (is : List Instr) (s t : State) : Prop :=
  runCommands (is.map encode) s = .next t ∧
    ∃ rs, t.responses = s.responses ++ rs ∧ ∀ r ∈ rs, r.extractLsb' 28 4 = 0#4

theorem succeedsTo_nil (s : State) : SucceedsTo [] s s := ⟨rfl, [], (List.append_nil _).symm, nofun⟩

theorem SucceedsTo.append {is js : List Instr} {s t u : State} (h : SucceedsTo is s t) (h' : SucceedsTo js t u) :
    SucceedsTo (is ++ js) s u := by
  obtain ⟨hrun, rs, hresp, hzero⟩ := h
  obtain ⟨hrun', rs', hresp', hzero'⟩ := h'
  refine ⟨?_, rs ++ rs', ?_, fun r hr => (List.mem_append.1 hr).elim (hzero r) (hzero' r)⟩
  · rw [List.map_append, runCommands_append hrun, hrun']
  · rw [hresp', hresp, List.append_assoc]

/-- R53: the response carries `ERR` as the command left it. -/
theorem succeedsTo_of_exec {i : Instr} {s t : State} (ht : exec i s = .next t) (hready : Ready t) : SucceedsTo [i] s t := by
  have hw : execWord (encode i) s = .next t := (execWord_of_decode (decode_encode i) s).trans ht
  obtain ⟨u, d, hu, ⟨r, hresp, herr, -⟩, -⟩ := execWord_responds (encode i) s
  obtain rfl := next_inj (hw.symm.trans hu)
  exact ⟨runCommands_cons hw [], [r], hresp, fun r' hr' => List.mem_singleton.1 hr' ▸ herr.trans hready⟩

theorem SucceedsTo.cons {i : Instr} {is : List Instr} {s t u : State} (ht : exec i s = .next t) (hready : Ready t)
    (h : SucceedsTo is t u) : SucceedsTo (i :: is) s u := (succeedsTo_of_exec ht hready).append h

theorem SucceedsTo.runSucceeds {is : List Instr} {s t : State} (h : SucceedsTo is s t) (hr : Ready s) :
    RunSucceeds (is.map encode) s := by
  obtain ⟨hrun, rs, hresp, hzero⟩ := h
  exact ⟨hr, t, hrun, by rwa [hresp, List.drop_left]⟩

/-- R83: the search finds an inverse of the residue of every determinant that `VALK` accepts (R87). -/
theorem exists_modinv27_of_coprime {z : Int} (hz : Int.gcd (z % 27) 27 = 1) : ∃ x, modinv27 (mod27 z) = some x := by
  rwa [exists_modinv27_iff, ← euclid_eq, euclid_mod27]

/-- `DKEY` (R58): load, validate, invert. -/
theorem succeedsTo_dkey {a b c d : Field} {s : State} (hr : Ready s)
    (hv : a.toNat ≤ 26 ∧ b.toNat ≤ 26 ∧ c.toNat ≤ 26 ∧ d.toNat ≤ 26) {x : Nat}
    (hx : modinv27 (mod27 (determinant a b c d)) = some x) :
    SucceedsTo (expand (.dkey a b c d)) s (inverted x (validated (keyLoaded a b c d s))) := by
  have hloaded := ready_keyLoaded hr a b c d
  have hvalidated := ready_validated hloaded
  have hinvk := succeedsTo_of_exec (exec_invk_of_some hvalidated hx) (ready_inverted hvalidated x)
  exact .cons (exec_ldk_of_legal hr hv) hloaded (.cons (exec_valk_of_ready hloaded) hvalidated hinvk)

theorem keyValidated_inverted (x : Nat) (s : State) : KeyValidated (inverted x s) ↔ KeyValidated s := by
  rw [keyValidated_iff, inverted, answerWith_status, statusKv_setIv, keyValidated_iff]

theorem keyDeterminant_of_sameButOutputs {s t : State} (h : SameButOutputs s t) : keyDeterminant t = keyDeterminant s := by
  obtain ⟨o0, o1, rs, rfl⟩ := h
  rfl

/-- Blocks of values after one another: none changes what the next one needs. -/
theorem succeedsTo_blocks {block : Field → Field → Instr} {a b c d : Field} {s : State} (hr : Ready s)
    (hm : MultipliesBlocks block a b c d s) {bs : List (Field × Field)} (hbs : ∀ p ∈ bs, p.1.toNat ≤ 26 ∧ p.2.toNat ≤ 26)
    {u : State} (hu : SameButOutputs s u) :
    ∃ t, SucceedsTo (bs.map fun p => block p.1 p.2) u t ∧ SameButOutputs s t := by
  induction bs generalizing u with
  | nil => exact ⟨u, succeedsTo_nil u, hu⟩
  | cons p bs ih =>
    obtain ⟨hp, hbs⟩ := List.forall_mem_cons.1 hbs
    have hnext := sameButOutputs_multiplied hu a b c d p.1 p.2
    obtain ⟨t, ht, hst⟩ := ih hbs hnext
    exact ⟨t, .cons (hm p.1 p.2 u hu hp) (ready_of_sameButOutputs hnext hr) ht, hst⟩

/-- `DECRYPT` (R58) over a key that has an inverse. -/
theorem succeedsTo_decrypt {s : State} (hr : Ready s) {x : Nat} (hx : modinv27 (mod27 (keyDeterminant s)) = some x)
    {cs : List (Field × Field)} (hcs : ∀ p ∈ cs, p.1.toNat ≤ 26 ∧ p.2.toNat ≤ 26) :
    ∃ t, SucceedsTo (expand (.decrypt cs)) s t := by
  have hready := ready_inverted hr x
  obtain ⟨t, ht, -⟩ := succeedsTo_blocks hready (muld_multipliesBlocks hready (statusIv_setIv true s.status)) hcs
    (sameButOutputs_refl _)
  exact ⟨t, .cons (exec_invk_of_some hr hx) hready ht⟩

/-- Settles O47: `DKEY` leaves the key validated, so the blocks of `ENCRYPT` succeed, and they leave the key `DECRYPT` inverts. -/
theorem initialisedEngineRunsItsBlocks : Obligations.InitialisedEngineRunsItsBlocks := by
  intro a b c d bs cs s hr ha hb hc hd hdet hblocks
  obtain ⟨hbs, hcs⟩ := List.forall_mem_append.1 hblocks
  obtain ⟨x, hx⟩ : ∃ x, modinv27 (mod27 (determinant a b c d)) = some x := exists_modinv27_of_coprime hdet
  have hready := ready_inverted (ready_validated (ready_keyLoaded hr a b c d)) x
  have hkv := (keyValidated_inverted x _).2 ((keyValidated_validated (keyLoaded a b c d s)).2 hdet)
  have hkey := succeedsTo_dkey hr ⟨ha, hb, hc, hd⟩ hx
  obtain ⟨t, henc, hst⟩ := succeedsTo_blocks hready (mule_multipliesBlocks hready hkv) hbs (sameButOutputs_refl _)
  obtain ⟨u, hdec⟩ := succeedsTo_decrypt (ready_of_sameButOutputs hst hready)
    (by rw [keyDeterminant_of_sameButOutputs hst]; exact hx) hcs
  exact ((hkey.append henc).append hdec).runSucceeds hr

end Sys2Proof.Machine
end

section
/-! SUPPORT. R160, R161: a reset, as a step and at an edge. -/

namespace Sys2Proof.Machine

/-- Settles O13: `step_of_reset`. -/
theorem resetBetweenCommands : Obligations.ResetBetweenCommands := fun _ _ => step_of_reset

section
variable {i : PortIn} (h : i.rst = true) (p : Port)
include h

theorem portEdge_of_rst :
    portEdge i p =
      { engine := State.reset, phase := .starting (Config.resetRecovery p.drawn), drawn := p.drawn + 1 } := if_pos h

theorem portAccepts_of_rst : portAccepts i p = none := by simp [portAccepts, h]

theorem portDelivers_of_rst : portDelivers i p = none := by simp [portDelivers, h]

end

/-- Settles O14: a port that is `starting` drives both handshake outputs to 0 and holds no command. -/
theorem resetEdge : Obligations.ResetEdge := by
  intro i p h
  rw [portEdge_of_rst h p]
  exact ⟨rfl, rfl, rfl, portAccepts_of_rst h p, portDelivers_of_rst h p, rfl⟩

end Sys2Proof.Machine
end

section
/-! SUPPORT. R170: a latency and a reset recovery are both counted down edge by edge, and the edge after the count ends it. -/

namespace Sys2Proof.Machine

/-- A port that counts `n` edges without `rst` down (`f n` to `f 0`) and then becomes `q` is `q` after `n + 1` of them. -/
theorem portRun_countdown {f : Nat → Port} {q : Port} (hcount : ∀ i n, i.rst = false → portEdge i (f (n + 1)) = f n)
    (hlast : ∀ i, i.rst = false → portEdge i (f 0) = q) {n : Nat} {is : List PortIn} (hlen : is.length = n + 1)
    (hrst : ∀ i ∈ is, i.rst = false) : portRun is (f n) = q := by
  induction n generalizing is with
  | zero =>
    obtain ⟨i, rfl⟩ := List.length_eq_one_iff.1 hlen
    exact hlast i (hrst i (List.mem_singleton_self i))
  | succ n ih =>
    obtain ⟨i, is, rfl⟩ := List.exists_cons_of_length_eq_add_one hlen
    obtain ⟨hi, his⟩ := List.forall_mem_cons.1 hrst
    rw [portRun, hcount i n hi, ih (Nat.succ.inj hlen) his]

section
variable {i : PortIn} (h : i.rst = false) (s : State) (k : Nat)
include h

theorem portEdge_busy_succ (w : Word) (n : Nat) :
    portEdge i { engine := s, phase := .busy w (n + 1), drawn := k } = { engine := s, phase := .busy w n, drawn := k } := by
  simp [portEdge, h]

theorem portEdge_busy_zero (w : Word) :
    portEdge i { engine := s, phase := .busy w 0, drawn := k } =
      { engine := (answer w s).2, phase := .offering (answer w s).1, drawn := k } := by
  simp [portEdge, h]

theorem portEdge_starting_succ (n : Nat) :
    portEdge i { engine := s, phase := .starting (n + 1), drawn := k } = { engine := s, phase := .starting n, drawn := k } := by
  simp [portEdge, h]

theorem portEdge_starting_zero :
    portEdge i { engine := s, phase := .starting 0, drawn := k } = { engine := s, phase := .idle, drawn := k } := by
  simp [portEdge, h]

end

section
variable (s : State) (k : Nat) {n : Nat} {is : List PortIn} (hlen : is.length = n + 1) (hrst : ∀ i ∈ is, i.rst = false)
include hlen hrst

/-- R33: at the end of its latency the command has executed and its response is offered. -/
theorem portRun_busy (w : Word) :
    portRun is { engine := s, phase := .busy w n, drawn := k } =
      { engine := (answer w s).2, phase := .offering (answer w s).1, drawn := k } :=
  portRun_countdown (f := fun n => { engine := s, phase := .busy w n, drawn := k })
    (fun _ n hi => portEdge_busy_succ hi s k w n) (fun _ hi => portEdge_busy_zero hi s k w) hlen hrst

/-- R161: at the end of its recovery the engine is ready. -/
theorem portRun_starting :
    portRun is { engine := s, phase := .starting n, drawn := k } = { engine := s, phase := .idle, drawn := k } :=
  portRun_countdown (f := fun n => { engine := s, phase := .starting n, drawn := k })
    (fun _ n hi => portEdge_starting_succ hi s k n) (fun _ hi => portEdge_starting_zero hi s k) hlen hrst

end

/-- Settles O50: the number of edges is one more than the free value drawn at the edge. -/
theorem everyAcceptedCommandIsAnswered : Obligations.EveryAcceptedCommandIsAnswered := by
  refine ⟨fun i p w hw => ?answered, fun i p h => ?recovered⟩
  case answered =>
    refine ⟨Config.extraLatency p.drawn w (registerContents p.engine) + 1, Nat.succ_pos _, fun is hlen hrst => ?_⟩
    rw [portEdge_of_accepts hw, portRun_busy p.engine _ hlen hrst w]
    exact ⟨_, _, execWord_eq_answer w p.engine, answer_responses w p.engine, rfl, rfl⟩
  case recovered =>
    refine ⟨Config.resetRecovery p.drawn + 1, fun is hlen hrst => ?_⟩
    rw [portEdge_of_rst h, portRun_starting State.reset _ hlen hrst]
    exact ⟨rfl, rfl⟩

end Sys2Proof.Machine
end
